-- ==== Sys2Proof/Word.lean ====
section
/-! DEFINITION. The word types of the engine (R8, R16): every value is an unsigned bit vector.

The data width `N` is a parameter of the configuration, `1 <= N <= 32` (R6). A data value is held in 32 bits whose low `N`
bits are the spec's `BitVec N`; the bits above `N` are zero in every value the engine produces (log entry 2). -/

namespace Sys2Proof

/-- A data value of the engine (R8, R27): the low `N` bits of it are the spec's `BitVec N`. -/
abbrev Data := BitVec 32

/-- A transaction address (R49). -/
abbrev Addr := BitVec 7

/-- A frame header, address then write-enable (R72). -/
abbrev Header := BitVec 8

end Sys2Proof
end

