-- ==== Sys2Proof/Config.lean ====
section
/-! DEFINITION. The configuration of the engine (R6, R109, R110, R125), the error that refuses one (R163), and the free
values the environment supplies (R38, D40). None of the configuration is changed by a step. A binding is named by its position
in the configuration's list (the `BindingId` of R110), a natural number. -/

namespace Sys2Proof

/-- The three kinds of endpoint a binding can have (R109). -/
inductive EndpointKind where
  | register
  | passThrough
  | group
deriving DecidableEq, Repr

/-- The three kinds of register endpoint (R33, R125): read-only, write-only, read/write. -/
inductive RegKind where
  | ro
  | wo
  | rw
deriving DecidableEq, Repr

/-- What addresses 12 to 15 select (R6 `ADDR_MAP`, R78). -/
inductive AddrMap where
  | group
  | mezz
deriving DecidableEq, Repr

/-- An endpoint binding as the configuration supplies it (R109), with the two parameters of a Register binding (R110,
R125). `pattern` and `mask` are numbers here, because check (a) of R115 has to be able to fail; an admitted binding's are
7-bit values. `regKind` and `regReset` are absent where the configuration gives none (check (g) of R115). -/
structure Binding where
  name     : String
  pattern  : Nat
  mask     : Nat
  kind     : EndpointKind
  fanout   : Bool
  regKind  : Option RegKind
  regReset : Option Data
deriving DecidableEq, Repr

/-- The parameters of R6. `GRP_FANOUT` is the `fanout` flag of the Group binding; `REG_KIND` and `REG_RESET` stand in the
Register bindings; `BINDINGS` is `bindings`, the table of R118 or a supplied one (R84). -/
structure Config where
  dataW         : Nat
  csActiveLevel : Bool
  backToBack    : Bool
  addrMap       : AddrMap
  bindings      : List Binding
deriving DecidableEq, Repr

/-- `L = 8 + N`, the number of clocks of a frame (R6, R57). -/
def Config.frameLen (c : Config) : Nat := 8 + c.dataW

/-- Why a configuration is refused (R163), with the information the table of R163 records. -/
inductive ConfigError where
  /-- Code 1: bindings `i` and `j` intersect, `i < j`, the first such pair in list order. -/
  | overlap (i j : Nat)
  /-- Code 2: binding `i` has a pattern bit outside its mask. -/
  | patternOutsideMask (i : Nat)
  /-- Code 3: binding `i` has a pattern or mask wider than 7 bits. -/
  | width (i : Nat)
  /-- Code 4: binding `i` carries the fan-out flag and is no Group binding. -/
  | fanoutNotGroup (i : Nat)
  /-- Code 5: the bindings listed are all of kind Group, and there is more than one. -/
  | multipleGroups (is : List Nat)
  /-- Code 6: the data width is outside 1..32. -/
  | dataWidth (n : Nat)
  /-- Code 7: Register binding `i` lacks its kind, or is WO or RW and lacks its reset value. -/
  | missingRegParam (i : Nat)
deriving DecidableEq, Repr

/-- FREE VALUE. What the status source of binding `e` drives at the `k`-th observation (R38, D40, U5). No body: nothing
can be proved of its value. Log entry 5. -/
opaque Config.freeStatus (e k : Nat) : Data

/-- FREE VALUE. What the downstream device on binding `e` drives on its serial output at the `k`-th observation (R38, D40,
U6). No body: nothing can be proved of its value. Log entry 5. -/
opaque Config.freeExtSdo (e k : Nat) : Bool

end Sys2Proof
end

