-- ==== Sys2Proof/Machine/Router.lean ====
section
/-! DEFINITION. The address router's configuration-time part and its match function (R109 to R119, R163), the canonical
binding table (R118) and the configuration the model's reset takes. All of it is a function of the configuration alone. -/

namespace Sys2Proof.Machine

/-- A binding's pattern on 7 bits (R109). -/
def patternBits (b : Binding) : Addr := BitVec.ofNat 7 b.pattern

/-- A binding's mask on 7 bits (R109). -/
def maskBits (b : Binding) : Addr := BitVec.ofNat 7 b.mask

/-- `binds(e, a)` of R111, bitwise on 7 bits. -/
def binds (b : Binding) (a : Addr) : Bool := (a &&& maskBits b) == patternBits b

/-- The positions, counted from `i`, of the bindings that match `a`. -/
def matchesFrom (i : Nat) (a : Addr) : List Binding → List Nat
  | [] => []
  | b :: bs => if binds b a then i :: matchesFrom (i + 1) a bs else matchesFrom (i + 1) a bs

/-- `match(a)` of R112: the unique binding that matches, if there is one. -/
def route (c : Config) (a : Addr) : Option Nat :=
  match matchesFrom 0 a c.bindings with
  | [e] => some e
  | _   => none

/-- `kind(e)` of R110; `none` where `e` is no binding. -/
def kindOf (c : Config) (e : Nat) : Option EndpointKind := (c.bindings[e]?).map Binding.kind

/-- `fanout(e)` of R110. -/
def fanoutOf (c : Config) (e : Nat) : Bool := ((c.bindings[e]?).map Binding.fanout).getD false

/-- `REG_KIND[e]` of R125. -/
def regKindOf (c : Config) (e : Nat) : Option RegKind := (c.bindings[e]?).bind Binding.regKind

/-- Is `e` a PassThrough or Group binding, the kinds that have downstream lines (R136)? -/
def hasLink (c : Config) (e : Nat) : Bool :=
  match kindOf c e with
  | some .passThrough => true
  | some .group       => true
  | some .register    => false
  | none              => false

/-- Does the binding hold a committed value, that is, is it a Register binding of kind WO or RW (`RegB` of R21, R34)? -/
def isStored (b : Binding) : Bool :=
  match b.kind, b.regKind with
  | .register, some .wo => true
  | .register, some .rw => true
  | _, _                => false

/-- The intersection test of R113. DESIGN CHOICE (log entry 14): the formula is applied to every pair of bindings, also where
R113's premise R115(b) fails; such a pair can be reported as an overlap though no address matches both. -/
def intersects (b1 b2 : Binding) : Bool :=
  ((patternBits b1 ^^^ patternBits b2) &&& maskBits b1 &&& maskBits b2) == 0#7

/-- The first position, counted from `j`, of a binding that intersects `b`. -/
def firstIntersecting (b : Binding) (j : Nat) : List Binding → Option Nat
  | [] => none
  | x :: xs => if intersects b x then some j else firstIntersecting b (j + 1) xs

/-- Check (c) of R115: the first intersecting pair `(i, j)`, `i < j`, in list order (D41), positions counted from `i`. DESIGN
CHOICE (log entry 15): of several pairs the first is the one with the smallest `i`, and of those the one with the smallest `j`. -/
def firstOverlap (i : Nat) : List Binding → Option (Nat × Nat)
  | [] => none
  | b :: bs =>
    match firstIntersecting b (i + 1) bs with
    | some j => some (i, j)
    | none   => firstOverlap (i + 1) bs

/-- The first position, counted from `i`, of a binding that fails `ok`. -/
def firstFailing (ok : Binding → Bool) (i : Nat) : List Binding → Option Nat
  | [] => none
  | b :: bs => if ok b then firstFailing ok (i + 1) bs else some i

/-- Check (a) of R115 for one binding. -/
def widthOk (b : Binding) : Bool := decide (b.pattern < 128) && decide (b.mask < 128)

/-- Check (b) of R115 for one binding, on 7 bits (log entry 8). -/
def patternInMask (b : Binding) : Bool := (patternBits b &&& ~~~maskBits b) == 0#7

/-- Check (d) of R115 for one binding. -/
def fanoutOk (b : Binding) : Bool := !b.fanout || decide (b.kind = .group)

/-- Check (g) of R115 for one binding. -/
def regParamsOk (b : Binding) : Bool :=
  match b.kind, b.regKind with
  | .register, none     => false
  | .register, some .ro => true
  | .register, some .wo => b.regReset.isSome
  | .register, some .rw => b.regReset.isSome
  | .passThrough, _     => true
  | .group, _           => true

/-- The positions, counted from `i`, of the Group bindings. -/
def groupsFrom (i : Nat) : List Binding → List Nat
  | [] => []
  | b :: bs => if b.kind = .group then i :: groupsFrom (i + 1) bs else groupsFrom (i + 1) bs

/-- The error code of R163. -/
def errorCode : ConfigError → Nat
  | .overlap _ _          => 1
  | .patternOutsideMask _ => 2
  | .width _              => 3
  | .fanoutNotGroup _     => 4
  | .multipleGroups _     => 5
  | .dataWidth _          => 6
  | .missingRegParam _    => 7

/-- Code 1 of R163. -/
def checkOverlap (c : Config) : Option ConfigError := (firstOverlap 0 c.bindings).map fun p => .overlap p.1 p.2

/-- Code 2 of R163. -/
def checkPattern (c : Config) : Option ConfigError := (firstFailing patternInMask 0 c.bindings).map .patternOutsideMask

/-- Code 3 of R163. -/
def checkWidth (c : Config) : Option ConfigError := (firstFailing widthOk 0 c.bindings).map .width

/-- Code 4 of R163. -/
def checkFanout (c : Config) : Option ConfigError := (firstFailing fanoutOk 0 c.bindings).map .fanoutNotGroup

/-- Code 5 of R163. -/
def checkGroups (c : Config) : Option ConfigError :=
  match groupsFrom 0 c.bindings with
  | []      => none
  | [_]     => none
  | i :: is => some (.multipleGroups (i :: is))

/-- Code 6 of R163. -/
def checkDataWidth (c : Config) : Option ConfigError :=
  if 1 ≤ c.dataW ∧ c.dataW ≤ 32 then none else some (.dataWidth c.dataW)

/-- Code 7 of R163. -/
def checkRegParams (c : Config) : Option ConfigError := (firstFailing regParamsOk 0 c.bindings).map .missingRegParam

/-- The admission checks of R115, in the order of their codes: the error reported is the failing one with the smallest
code (R163, D41); `none` means that the configuration is admitted. DESIGN CHOICE (log entry 13): no check ties the address map
to the bindings, so a supplied table with a Group binding is admitted under MEZZ too (R115, U15). -/
def configError (c : Config) : Option ConfigError :=
  checkOverlap c <|> checkPattern c <|> checkWidth c <|> checkFanout c <|> checkGroups c <|> checkDataWidth c <|>
    checkRegParams c

/-- The configuration is admitted (R115). -/
def admitted (c : Config) : Bool := (configError c).isNone

/-- `registerEndpoint` of R114: the new binding joins the table unless it intersects a binding registered earlier. DESIGN CHOICE
(log entry 15): where it intersects several, the pair reported names the earliest of them. -/
def registerEndpoint (table : List Binding) (b : Binding) : Except ConfigError (List Binding) :=
  match firstIntersecting b 0 table with
  | some i => .error (.overlap i table.length)
  | none   => .ok (table ++ [b])

/-- Registering bindings one at a time, starting from `table`; the first failure is fatal (R114, R116). The pair reported is the
first failing call's, so of several pairs the one with the smallest `j`; `configError` reports the one with the smallest `i`.
Both are called `Overlap`, and the pairs can differ. DESIGN CHOICE (log entry 15). -/
def registerFrom (table : List Binding) : List Binding → Except ConfigError (List Binding)
  | [] => .ok table
  | b :: bs =>
    match registerEndpoint table b with
    | .ok table' => registerFrom table' bs
    | .error e   => .error e

/-- Registering a whole list of bindings (R114). -/
def registerAll (bs : List Binding) : Except ConfigError (List Binding) := registerFrom [] bs

/-- A Register row of the canonical table (R118), with its two parameters (R125). -/
def registerRow (name : String) (pattern : Nat) (kind : Option RegKind) (reset : Option Data) : Binding :=
  { name := name, pattern := pattern, mask := 0x0F, kind := .register, fanout := false, regKind := kind,
    regReset := reset }

/-- A PassThrough row of the canonical table (R118). -/
def passThroughRow (name : String) (pattern : Nat) : Binding :=
  { name := name, pattern := pattern, mask := 0x0F, kind := .passThrough, fanout := false, regKind := none,
    regReset := none }

/-- The rows for addresses 12 to 15 (R118). -/
def topRows (m : AddrMap) (grpFanout : Bool) : List Binding :=
  match m with
  | .group =>
    [{ name := "GRP", pattern := 0x0C, mask := 0x0C, kind := .group, fanout := grpFanout, regKind := none,
       regReset := none }]
  | .mezz =>
    [passThroughRow "MEZ0" 0x0C, passThroughRow "MEZ1" 0x0D, passThroughRow "MEZ2" 0x0E, passThroughRow "MEZ3" 0x0F]

/-- The four Register rows of R118; `k` and `v` are `REG_KIND` and `REG_RESET` by register number. -/
def registerRows (k : Fin 4 → Option RegKind) (v : Fin 4 → Option Data) : List Binding :=
  [registerRow "REG0" 0x00 (k 0) (v 0), registerRow "REG1" 0x01 (k 1) (v 1), registerRow "REG2" 0x02 (k 2) (v 2),
   registerRow "REG3" 0x03 (k 3) (v 3)]

/-- The canonical binding table of R118. -/
def canonicalBindings (m : AddrMap) (grpFanout : Bool) (k : Fin 4 → Option RegKind) (v : Fin 4 → Option Data) :
    List Binding :=
  registerRows k v ++
  [passThroughRow "PLL0" 0x04, passThroughRow "PLL1" 0x05, passThroughRow "PLL2" 0x06, passThroughRow "PLL3" 0x07,
   passThroughRow "ATT0" 0x08, passThroughRow "ATT1" 0x09, passThroughRow "ATT2" 0x0A, passThroughRow "ATT3" 0x0B] ++
  topRows m grpFanout

/-- `REG_KIND` of CFG-T (95_test_vectors.md section 0). Log entry 4. -/
def boardRegKind : Fin 4 → Option RegKind
  | 0 => some .rw
  | 1 => some .rw
  | 2 => some .ro
  | 3 => some .wo

/-- `REG_RESET` of CFG-T. Log entry 4. -/
def boardRegReset : Fin 4 → Option Data
  | 0 => some 0#32
  | 1 => some 0#32
  | 2 => none
  | 3 => some 0#32

/-- The configuration of the model's reset: CFG-T of 95_test_vectors.md section 0, with the address map as an argument.
DESIGN CHOICE, log entry 4: the spec leaves these parameters open. -/
def boardConfigWith (m : AddrMap) : Config :=
  { dataW := 16, csActiveLevel := false, backToBack := false, addrMap := m,
    bindings := canonicalBindings m true boardRegKind boardRegReset }

/-- CFG-T itself: `ADDR_MAP = GROUP`, the default of R6. DESIGN CHOICE, log entry 4. -/
def boardConfig : Config := boardConfigWith .group

end Sys2Proof.Machine
end

