-- ==== Sys2Proof/Syntax.lean ====
section
/-! DEFINITION. The transactions of the engine, one constructor for each row of the opcode table (R80). -/

namespace Sys2Proof

/-- A transaction: one complete frame (R70, R80). `hi` is `addr[6:4]`, the three address bits the canonical table ignores
(R79); `r`, `c` and `i` are `addr[1:0]`; `we` is the write-enable bit where the row leaves it open; `d` is the frame's data,
of which the low `N` bits are sent. -/
inductive Instr where
  /-- `REG_RD` (R131): read register `r`. -/
  | regRd (hi : BitVec 3) (r : BitVec 2) (d : Data)
  /-- `REG_WR` (R132): write `d` to register `r`. -/
  | regWr (hi : BitVec 3) (r : BitVec 2) (d : Data)
  /-- `PLL_XFER` (R143): transfer `d` to PLL channel `c`. -/
  | pllXfer (hi : BitVec 3) (c : BitVec 2) (we : Bool) (d : Data)
  /-- `ATT_XFER` (R144): transfer `d` to attenuator channel `c`. -/
  | attXfer (hi : BitVec 3) (c : BitVec 2) (we : Bool) (d : Data)
  /-- `GRP_XFER` (R160): transfer `d` on the group link, ending in a strobe of sub-target `i`. -/
  | grpXfer (hi : BitVec 3) (i : BitVec 2) (we : Bool) (d : Data)
  /-- `MEZ_XFER` (R145): transfer `d` to mezzanine channel `c`. -/
  | mezXfer (hi : BitVec 3) (c : BitVec 2) (we : Bool) (d : Data)
deriving DecidableEq, Repr

end Sys2Proof
end

