-- ==== Sys2Proof/WellFormed.lean ====
section
/-! DEFINITION. When a transaction is well formed under a configuration: its data fits the data width (R8, R70), and its row
exists under the address map (R80: `GRP_XFER` under GROUP only, `MEZ_XFER` under MEZZ only). -/

namespace Sys2Proof

/-- The value is a `BitVec N` of the configuration (R70, R73). -/
def dataFits (c : Config) (d : Data) : Bool := decide (d.toNat < 2 ^ c.dataW)

/-- The checks a transaction passes under configuration `c`. -/
def Instr.wellFormed (c : Config) : Instr → Bool
  | .regRd _ _ d     => dataFits c d
  | .regWr _ _ d     => dataFits c d
  | .pllXfer _ _ _ d => dataFits c d
  | .attXfer _ _ _ d => dataFits c d
  | .grpXfer _ _ _ d => dataFits c d && decide (c.addrMap = .group)
  | .mezXfer _ _ _ d => dataFits c d && decide (c.addrMap = .mezz)

end Sys2Proof
end

