-- ==== Sys2Proof/Decode.lean ====
section
/-! DEFINITION. The frame format (R70 to R73), the decoder from the bits of a frame to a transaction (R79 to R81), and the
encoder from a transaction to its bits, both written from the spec's encoding tables. A frame is a list of bits in wire
order, the first bit first (R9). -/

namespace Sys2Proof

/-- A value cut to the data width, that is, read as the spec's `BitVec N` (R8). -/
def fitData (N : Nat) (v : Data) : Data := (v.setWidth N).setWidth 32

/-- The data shift register's next value, `(N = 1) ? b : {din[N-2:0], b}` (R97). -/
def shiftData (N : Nat) (v : Data) (b : Bool) : Data := fitData N (v.shiftConcat b)

/-- The low `k` bits of a value in wire order, most significant first (R9, R55). -/
def msbFirst {w : Nat} : Nat → BitVec w → List Bool
  | 0, _     => []
  | k + 1, v => v.getLsbD k :: msbFirst k v

/-- The number whose bits in wire order are the list (R9, R55). -/
def ofMsbFirst (bits : List Bool) : Nat := bits.foldl (fun acc b => 2 * acc + b.toNat) 0

/-- The header `{addr, we}` (R72). -/
def headerOf (a : Addr) (we : Bool) : Header := a ++ BitVec.ofBool we

/-- The address `{addr[6:4], addr[3:2], addr[1:0]}`. -/
def addrOf (hi : BitVec 3) (region sub : BitVec 2) : Addr := hi ++ region ++ sub

/-- The bits of the frame `XFER a, we, d` in wire order (R70). -/
def frameBits (N : Nat) (a : Addr) (we : Bool) (d : Data) : List Bool := msbFirst 8 (headerOf a we) ++ msbFirst N d

/-- The address of a transaction (R80: `hdr[4:3]` is `addr[3:2]`). -/
def Instr.addr : Instr → Addr
  | .regRd hi r _     => addrOf hi 0b00#2 r
  | .regWr hi r _     => addrOf hi 0b00#2 r
  | .pllXfer hi c _ _ => addrOf hi 0b01#2 c
  | .attXfer hi c _ _ => addrOf hi 0b10#2 c
  | .grpXfer hi i _ _ => addrOf hi 0b11#2 i
  | .mezXfer hi c _ _ => addrOf hi 0b11#2 c

/-- The write-enable bit of a transaction (R80). -/
def Instr.we : Instr → Bool
  | .regRd _ _ _      => false
  | .regWr _ _ _      => true
  | .pllXfer _ _ we _ => we
  | .attXfer _ _ we _ => we
  | .grpXfer _ _ we _ => we
  | .mezXfer _ _ we _ => we

/-- The data of a transaction (R73). -/
def Instr.data : Instr → Data
  | .regRd _ _ d     => d
  | .regWr _ _ d     => d
  | .pllXfer _ _ _ d => d
  | .attXfer _ _ _ d => d
  | .grpXfer _ _ _ d => d
  | .mezXfer _ _ _ d => d

/-- The name a transaction has in the opcode table. -/
def Instr.mnemonic : Instr → String
  | .regRd _ _ _     => "REG_RD"
  | .regWr _ _ _     => "REG_WR"
  | .pllXfer _ _ _ _ => "PLL_XFER"
  | .attXfer _ _ _ _ => "ATT_XFER"
  | .grpXfer _ _ _ _ => "GRP_XFER"
  | .mezXfer _ _ _ _ => "MEZ_XFER"

/-- Why a list of bits is no frame (R57, R58). Neither is an error of the engine: `Machine.step` runs such bits edge by
edge. -/
inductive DecodeError where
  /-- Fewer than `L` bits: a short frame (R58). -/
  | short
  /-- More than `L` bits: clocks beyond the frame (R98). -/
  | long
deriving DecidableEq, Repr

/-- The transaction a header and its data stand for (R80): `hdr[4:3]` selects the row, `hdr[0]` splits the register row. -/
def decodeHeader (m : AddrMap) (h : Header) (d : Data) : Instr :=
  if h.extractLsb' 3 2 = 0b00#2 then
    if h.getLsbD 0 then .regWr (h.extractLsb' 5 3) (h.extractLsb' 1 2) d
    else .regRd (h.extractLsb' 5 3) (h.extractLsb' 1 2) d
  else if h.extractLsb' 3 2 = 0b01#2 then .pllXfer (h.extractLsb' 5 3) (h.extractLsb' 1 2) (h.getLsbD 0) d
  else if h.extractLsb' 3 2 = 0b10#2 then .attXfer (h.extractLsb' 5 3) (h.extractLsb' 1 2) (h.getLsbD 0) d
  else match m with
    | .group => .grpXfer (h.extractLsb' 5 3) (h.extractLsb' 1 2) (h.getLsbD 0) d
    | .mezz  => .mezXfer (h.extractLsb' 5 3) (h.extractLsb' 1 2) (h.getLsbD 0) d

/-- The decoder, total on any bits: exactly `L` bits are a transaction (R57, R81, R82), any other length is rejected by
name. -/
def decode (c : Config) (bits : List Bool) : Except DecodeError Instr :=
  if bits.length < c.frameLen then .error .short
  else if c.frameLen < bits.length then .error .long
  else .ok (decodeHeader c.addrMap (BitVec.ofNat 8 (ofMsbFirst (bits.take 8))) (BitVec.ofNat 32 (ofMsbFirst (bits.drop 8))))

/-- The bits of a transaction in wire order (R70). -/
def encode (c : Config) (i : Instr) : List Bool := frameBits c.dataW i.addr i.we i.data

/-- The frame word `W = {addr, we, data}` of R71 as a number. -/
def frameWord (c : Config) (i : Instr) : Nat :=
  i.addr.toNat * 2 ^ (c.dataW + 1) + i.we.toNat * 2 ^ c.dataW + i.data.toNat

/-- A row of the opcode table: a header `h` belongs to it when `h AND mask = value` (R80). -/
structure OpRow where
  mnemonic : String
  value    : Header
  mask     : Header
deriving DecidableEq, Repr

/-- The rows of R80 that apply under an address map. -/
def opRows (m : AddrMap) : List OpRow :=
  [{ mnemonic := "REG_RD", value := 0x00#8, mask := 0x19#8 },
   { mnemonic := "REG_WR", value := 0x01#8, mask := 0x19#8 },
   { mnemonic := "PLL_XFER", value := 0x08#8, mask := 0x18#8 },
   { mnemonic := "ATT_XFER", value := 0x10#8, mask := 0x18#8 },
   { mnemonic := (match m with | .group => "GRP_XFER" | .mezz => "MEZ_XFER"), value := 0x18#8, mask := 0x18#8 }]

/-- The wire bits of an opcode-table word: the header byte is the word's lowest byte and goes first, each further byte
follows it, and every bit above `nbits` is 0; `len` bits of them are sent. -/
def tableBits (len nbits w : Nat) : List Bool :=
  ((List.range 5).flatMap fun k => msbFirst 8 (BitVec.ofNat 8 ((w % 2 ^ nbits) >>> (8 * k)))).take len

/-- The transaction the decoder reads from an opcode-table word, under the configuration of the model's reset. -/
def decodeTableWord (nbits w : Nat) : Option Instr :=
  (decode Machine.boardConfig (tableBits Machine.boardConfig.frameLen nbits w)).toOption

end Sys2Proof
end

