-- ==== Sys2Proof/Machine/PowerOn.lean ====
section
/-! DEFINITION. The contents of the register file at power-on (R46, R181), a function of the configuration alone. -/

namespace Sys2Proof.Machine

/-- The registers at power-on (R46): `REG_RESET[e]` for each WO or RW Register binding, positions counted from `i`. The
missing value of an unadmitted binding never reaches a step, which refuses such a configuration. -/
def initialRegs (N i : Nat) : List Binding → List (Nat × Data)
  | [] => []
  | b :: bs =>
    if isStored b then (i, fitData N (b.regReset.getD 0#32)) :: initialRegs N (i + 1) bs else initialRegs N (i + 1) bs

end Sys2Proof.Machine
end

