-- ==== Sys2Proof/Machine/State.lean ====
section
/-! DEFINITION. The state of the machine: the record of R21 field by field, the configuration (R6), and the model's own
records and input list; the reasons a step can stop; the power-on state (R46). -/

namespace Sys2Proof.Machine

/-- The bus events of R90. `sckRise` carries the `sdi` level at that edge. -/
inductive Ev where
  | csAssert
  | csDeassert
  | sckRise (b : Bool)
  | sckFall
deriving DecidableEq, Repr

/-- The decoded transaction events of R91, recorded in the history. -/
inductive TxEvent where
  | readRequest (a : Addr) (we : Bool) (sel : Option Nat)
  | writeCommit (e : Nat) (v : Data)
  | frameComplete (a : Addr) (we : Bool) (data : Data)
  | frameAborted (k : Nat)
  | latchStrobe (i : BitVec 2)
deriving DecidableEq, Repr

/-- What a downstream device sees on its lines (R140). Log entry 6. -/
inductive LineEvent where
  /-- `ext_cs[e]` rises. -/
  | csRise (e : Nat)
  /-- `ext_sck[e]` rises while `ext_sdi[e] = b`. -/
  | clock (e : Nat) (b : Bool)
  /-- `ext_cs[e]` falls. -/
  | csFall (e : Nat)
deriving DecidableEq, Repr

/-- What the outside does next (R19, R38, R178). Log entry 1. -/
inductive Input where
  /-- The master sends these bits, the first first, within one chip-select assertion (R85, R87): `L` bits are one frame,
  fewer are `ABORT`, more are clocks beyond the frame. Where chip-select is asserted already, the bits stand inside that
  assertion (`B2B`). -/
  | burst (bits : List Bool)
  /-- One bus event (R90). -/
  | event (ev : Ev)
  /-- One sample of the pins at `onClockEdge` (R106). -/
  | sample (csPin sck sdi : Bool)
  /-- The environment holds `status[e]` at a level, or (`none`) leaves it free again (R38). -/
  | driveStatus (e : Nat) (v : Option Data)
  /-- The environment holds `ext_sdo[e]` at a level, or (`none`) leaves it free again (R38). -/
  | driveExtSdo (e : Nat) (b : Option Bool)
deriving DecidableEq, Repr

/-- Why the machine could stop with a fault. There is no such reason: the engine raises no exception at run time (R162).
Safe: nothing stops with a fault. -/
inductive Fault where
deriving DecidableEq, Repr

/-- Why the model refuses to go on. -/
inductive Refusal where
  /-- Raised by an arm of `exec` whose transaction has no meaning yet; no arm raises it. Safe. -/
  | notModelled (mnemonic : String)
  /-- Raised by `applyEvent`: an event that level signals cannot produce (R103). Safe: the spec gives it no meaning. -/
  | illegal (ev : Ev)
  /-- Raised by `powerOn` and by `step`: the configuration is not admitted, so there is no machine (R115, R116, R163).
  Safe. -/
  | configError (e : ConfigError)
deriving DecidableEq, Repr

/-- The machine. -/
structure State where
  /-- The configuration (R6). No step changes it (R68). Log entry 3. -/
  cfg        : Config
  /-- `act` (R22): chip-select is logically asserted. -/
  act        : Bool
  /-- `sck_q` (R23): the last clock level. -/
  sckQ       : Bool
  /-- `n` (R24): the bits still to be sampled in the frame. -/
  n          : Nat
  /-- `hdr` (R26): the header shift register. -/
  hdr        : Header
  /-- `din` (R27): the data shift register. -/
  din        : Data
  /-- `sel` (R28): the binding this frame's address selected. -/
  sel        : Option Nat
  /-- `sout` (R29): the outgoing shift chain. -/
  sout       : Option Data
  /-- `sdo_q` (R30): the registered output bit; `none` stands for `ANY`. -/
  sdoQ       : Option Bool
  /-- `lcs` (R31): the registered local chip-select. -/
  lcs        : Bool
  /-- `regs` (R34): the committed value of each WO or RW Register binding, keys rising. -/
  regs       : List (Nat × Data)
  /-- `lastIndex` (R36). -/
  lastIndex  : BitVec 2
  /-- `latch` (R37). -/
  latch      : BitVec 4
  /-- MODEL'S OWN. The levels a scenario pins on `status[e]`; an unlisted one is free. Log entry 5. -/
  statusPin  : List (Nat × Data)
  /-- MODEL'S OWN. The levels a scenario pins on `ext_sdo[e]`; an unlisted one is free. Log entry 5. -/
  extSdoPin  : List (Nat × Bool)
  /-- MODEL'S OWN. The number of observation instants so far, the argument of the free values. Log entry 5. -/
  draws      : Nat
  /-- MODEL'S OWN. The event history of R91, oldest first. Log entry 6. -/
  history    : List TxEvent
  /-- MODEL'S OWN. What the master sampled on `sdo` at rising edges (R75), oldest first; `none` stands for `ANY`. Log entry
  6. -/
  sdoSeen    : List (Option Bool)
  /-- MODEL'S OWN. What `onClockEdge` returned (R106), oldest first. Log entry 6. -/
  sdoOut     : List (Option Bool)
  /-- MODEL'S OWN. What the downstream devices saw (R140), oldest first. Log entry 6. -/
  downstream : List LineEvent
  /-- MODEL'S OWN. What the outside still has to do, oldest first. Log entry 1. -/
  pending    : List Input
deriving DecidableEq, Repr

/-- The state after power-on under a configuration (R44, R46). -/
def State.powerOnState (c : Config) : State :=
  { cfg := c, act := false, sckQ := false, n := c.frameLen, hdr := 0#8, din := 0#32, sel := none, sout := none,
    sdoQ := none, lcs := false, regs := initialRegs c.dataW 0 c.bindings, lastIndex := 0#2, latch := 0#4,
    statusPin := [], extSdoPin := [], draws := 0, history := [], sdoSeen := [], sdoOut := [], downstream := [],
    pending := [] }

/-- The machine right after power-on, under the configuration CFG-T (log entry 4). -/
def State.reset : State := State.powerOnState boardConfig

end Sys2Proof.Machine
end

