-- ==== Sys2Proof/Machine/Flags.lean ====
section
/-! DEFINITION. The engine has no condition codes and no status flags (R41). The only status-like information is the phase,
a function of the bit counter (R25), and whether the frame is complete. -/

namespace Sys2Proof.Machine

/-- The phases of a frame (R25). -/
inductive Phase where
  | addr
  | data
  | done
deriving DecidableEq, Repr

/-- `phase(S)` of R25. -/
def phase (s : State) : Phase :=
  if s.cfg.dataW < s.n then .addr else if 0 < s.n then .data else .done

end Sys2Proof.Machine
end

