-- ==== Sys2Proof/Machine/Operands.lean ====
section
/-! DEFINITION. The operands a frame carries, taken from the header register (R26, R72, R73). The engine has no other
operand forms: nothing is extended, scaled or computed on. -/

namespace Sys2Proof.Machine

/-- `addr = hdr[7:1]` (R26, R73). -/
def headerAddr (h : Header) : Addr := h.extractLsb' 1 7

/-- `we = hdr[0]` (R26, R73). -/
def headerWe (h : Header) : Bool := h.getLsbD 0

/-- `nibble = addr[3:0]` (R73), what the canonical table decodes. -/
def addrNibble (a : Addr) : BitVec 4 := a.extractLsb' 0 4

/-- `index = addr[1:0]` (R73), the group's sub-target. -/
def addrIndex (a : Addr) : BitVec 2 := a.extractLsb' 0 2

end Sys2Proof.Machine
end

