-- ==== Sys2Proof/Machine/Outputs.lean ====
section
/-! DEFINITION. The engine's outputs (R12, R39, R40): functions of the state and of the current input levels. -/

namespace Sys2Proof.Machine

/-- The level the environment drives on `ext_sdo[e]` (R38): what the scenario pins, or a free draw. -/
def extSdoLevel (s : State) (e : Nat) : Bool :=
  (s.extSdoPin.lookup e).getD (Config.freeExtSdo e s.draws)

/-- `ext_cs[e](S)` of R137. -/
def extCs (s : State) (e : Nat) : Bool := s.act && s.lcs && decide (s.sel = some e)

/-- `ext_sck[e](S)` of R138. -/
def extSck (s : State) (e : Nat) : Bool := s.sckQ && extCs s e

/-- `ext_sdi[e](S, sdi)` of R139. -/
def extSdi (s : State) (e : Nat) (sdi : Bool) : Bool :=
  if fanoutOf s.cfg e then sdi else sdi && extCs s e

/-- The register part of the output multiplexer (R122): the selected device's output while the local select is active,
else the registered output bit. -/
def muxOut (s : State) : Option Bool :=
  match s.sel with
  | some e => if s.lcs && hasLink s.cfg e then some (extSdoLevel s e) else s.sdoQ
  | none   => s.sdoQ

/-- `sdo(S, env)` of R122; `none` stands for `ANY`. -/
def sdo (s : State) : Option Bool := if s.act then muxOut s else none

/-- The value of a binding in the register file; a binding that is not listed reads 0 (no admitted configuration has a
stored register that is not listed). -/
def regGet : List (Nat × Data) → Nat → Data
  | [], _ => 0#32
  | (k, v) :: rest, e => if k = e then v else regGet rest e

/-- `reg_q[e]` of R39 and R130, for the WO and RW Register bindings. -/
def regQ (s : State) (e : Nat) : Option Data :=
  if (s.cfg.bindings[e]?).any isStored then some (regGet s.regs e) else none

/-- The binding whose local select is active (R137), if any. -/
def activeLink (s : State) : Option Nat := if s.act && s.lcs then s.sel else none

/-- The changes of `ext_cs` from `s` to `s'` (R137, R142). -/
def selectChanges (s s' : State) : List LineEvent :=
  if activeLink s = activeLink s' then []
  else ((activeLink s).map LineEvent.csFall).toList ++ ((activeLink s').map LineEvent.csRise).toList

/-- The rising forwarded clock from `s` to `s'`, with the forwarded data bit (R138, R139, R140). -/
def clockRises (s s' : State) (sdi : Bool) : List LineEvent :=
  match activeLink s' with
  | some e => if extSck s' e && !extSck s e then [.clock e (extSdi s' e sdi)] else []
  | none   => []

end Sys2Proof.Machine
end

