-- ==== Sys2Proof/Machine/Ops.lean ====
section
/-! DEFINITION. The named operations the event rules share: the register file, frame reset, the latch generator, register
read and commit, the read-request. The engine has no exceptions (R162, R169): its only cancellation is `frameInit`. -/

namespace Sys2Proof.Machine

/-- Writing a binding's value in the register file; the keys stay rising. -/
def regSet : List (Nat × Data) → Nat → Data → List (Nat × Data)
  | [], e, v => [(e, v)]
  | (k, w) :: rest, e, v =>
    if e < k then (e, v) :: (k, w) :: rest
    else if e = k then (e, v) :: rest
    else (k, w) :: regSet rest e v

/-- The register file's canonical form: keys strictly rising, so that equal register files are equal lists. -/
abbrev regFileWf (regs : List (Nat × Data)) : Prop := (regs.map Prod.fst).Pairwise (· < ·)

/-- Recording a decoded transaction event (R91). -/
def record (x : TxEvent) (s : State) : State := { s with history := s.history ++ [x] }

/-- `FrameInit` of R92, the frame reset (R179). -/
def frameInit (s : State) : State :=
  { s with n := s.cfg.frameLen, hdr := 0#8, din := 0#32, sel := none, sout := none, sdoQ := none, lcs := false }

/-- `GroupLatchClear` of R155. -/
def groupLatchClear (s : State) : State := { s with latch := 0#4 }

/-- The latch bus with line `i` high and every other line as before (R154). -/
def setLatchLine (l : BitVec 4) (i : BitVec 2) : BitVec 4 := l ||| (1#4 <<< i.toNat)

/-- `GroupLatchSet(i)` of R154. -/
def groupLatchSet (i : BitVec 2) (s : State) : State :=
  record (.latchStrobe i) { s with latch := setLatchLine s.latch i }

/-- Does the frame end with a strobe here: the local select is active and belongs to the Group binding (R94, R101)? -/
def groupActive (s : State) : Bool :=
  match s.sel with
  | some g => s.lcs && decide (kindOf s.cfg g = some .group)
  | none   => false

/-- The level the environment drives on `status[e]` (R38), on N bits: what the scenario pins, or a free draw. -/
def statusLevel (s : State) (e : Nat) : Data :=
  fitData s.cfg.dataW ((s.statusPin.lookup e).getD (Config.freeStatus e s.draws))

/-- `RegRead(e)` of R127. -/
def regRead (s : State) (e : Nat) : Data :=
  match regKindOf s.cfg e with
  | some .rw => regGet s.regs e
  | some .ro => statusLevel s e
  | some .wo => statusLevel s e
  | none     => statusLevel s e

/-- The register file after `RegCommit(e, v)` of R128: an RO register has no stored value (D36). -/
def committedRegs (c : Config) (regs : List (Nat × Data)) (e : Nat) (v : Data) : List (Nat × Data) :=
  match regKindOf c e with
  | some .rw => regSet regs e v
  | some .wo => regSet regs e v
  | some .ro => regs
  | none     => regs

/-- `RegCommit(e, v)` of R128. -/
def regCommit (e : Nat) (v : Data) (s : State) : State :=
  record (.writeCommit e v) { s with regs := committedRegs s.cfg s.regs e v }

/-- The outgoing shift chain the read-request loads (R96). -/
def loadedSout (s : State) (m : Option Nat) : Option Data :=
  match m with
  | some e => if kindOf s.cfg e = some .register then some (regRead s e) else none
  | none   => none

/-- The sub-target index after the read-request (R96, R150). -/
def loadedIndex (c : Config) (old : BitVec 2) (a : Addr) (m : Option Nat) : BitVec 2 :=
  match m with
  | some e => if kindOf c e = some .group then addrIndex a else old
  | none   => old

/-- `ReadRequest(h)` of R96. -/
def readRequest (h : Header) (s : State) : State :=
  record (.readRequest (headerAddr h) (headerWe h) (route s.cfg (headerAddr h)))
    { s with
      sel := route s.cfg (headerAddr h)
      sout := loadedSout s (route s.cfg (headerAddr h))
      lastIndex := loadedIndex s.cfg s.lastIndex (headerAddr h) (route s.cfg (headerAddr h)) }

/-- The commit of the terminal edge (R97): only with `we = 1` and a Register selection. -/
def terminalCommit (v : Data) (s : State) : State :=
  match s.sel with
  | some e => if headerWe s.hdr && decide (kindOf s.cfg e = some .register) then regCommit e v s else s
  | none   => s

end Sys2Proof.Machine
end

