-- ==== Sys2Proof/Machine/Engine.lean ====
section
/-! DEFINITION. The event rules of the frame deserializer/serializer (R93 to R103), the sample interface `onClockEdge` (R106,
R107), and runs of events. Each event is one atomic transition computed from the prior state (R11). -/

namespace Sys2Proof.Machine

/-- `CS_ASSERT` (R93). -/
def csAssert (s : State) : State := groupLatchClear (frameInit { s with act := true })

/-- The strobe a deassertion still owes: the frame is complete and its local select still active (R94, R154). -/
def deassertStrobe (s : State) : State :=
  if decide (s.n = 0) && groupActive s then groupLatchSet s.lastIndex s else s

/-- The record of a short frame (R91, R94). -/
def recordAbort (s : State) : State :=
  if 0 < s.n ∧ s.n < s.cfg.frameLen then record (.frameAborted (s.cfg.frameLen - s.n)) s else s

/-- `CS_DEASSERT` (R94). -/
def csDeassert (s : State) : State := frameInit { recordAbort (deassertStrobe s) with act := false }

/-- `SCK_RISE(b)` in the ADDR phase (R95); the edge that makes `n = N` is the read-request (R96). -/
def sckRiseAddr (b : Bool) (s : State) : State :=
  let s' := { s with sckQ := true, hdr := s.hdr.shiftConcat b, n := s.n - 1 }
  if s.n - 1 = s.cfg.dataW then readRequest (s.hdr.shiftConcat b) s' else s'

/-- `SCK_RISE(b)` in the DATA phase (R97); the edge that makes `n = 0` completes the frame. -/
def sckRiseData (b : Bool) (s : State) : State :=
  let d := shiftData s.cfg.dataW s.din b
  let s' := { s with sckQ := true, din := d, n := s.n - 1 }
  if s.n - 1 = 0 then terminalCommit d (record (.frameComplete (headerAddr s.hdr) (headerWe s.hdr) d) s') else s'

/-- `SCK_RISE` in the DONE phase (R98): the idle clock of a back-to-back variant, else nothing. -/
def sckRiseDone (s : State) : State :=
  if s.cfg.backToBack then groupLatchClear (frameInit { s with sckQ := true }) else { s with sckQ := true }

/-- `SCK_RISE(b)` (R95, R97, R98, and R102 while deasserted). -/
def sckRise (b : Bool) (s : State) : State :=
  if s.act then
    match phase s with
    | .addr => sckRiseAddr b s
    | .data => sckRiseData b s
    | .done => sckRiseDone s
  else { s with sckQ := true }

/-- The output bit a falling edge of the DATA phase registers (R100). -/
def nextSdoQ (s : State) : Option Bool := s.sout.map fun v => v.getLsbD (s.n - 1)

/-- Does a falling edge assert the local select (R100, R136)? -/
def selectsLink (s : State) : Bool :=
  match s.sel with
  | some e => decide (s.n = s.cfg.dataW) && hasLink s.cfg e
  | none   => false

/-- `SCK_FALL` in the DATA phase (R100). -/
def sckFallData (s : State) : State :=
  { s with sckQ := false, sdoQ := nextSdoQ s, lcs := s.lcs || selectsLink s }

/-- `SCK_FALL` in the DONE phase (R101). -/
def sckFallDone (s : State) : State :=
  { (if groupActive s then groupLatchSet s.lastIndex s else s) with sckQ := false, sdoQ := none, lcs := false }

/-- `SCK_FALL` (R99, R100, R101, and R102 while deasserted). -/
def sckFall (s : State) : State :=
  if s.act then
    match phase s with
    | .addr => { s with sckQ := false }
    | .data => sckFallData s
    | .done => sckFallDone s
  else { s with sckQ := false }

/-- Level signals can produce the event in this state (R103). -/
def legal (s : State) : Ev → Bool
  | .csAssert   => !s.act
  | .csDeassert => s.act
  | .sckRise _  => !s.sckQ
  | .sckFall    => s.sckQ

/-- The event's effect on the engine (R93 to R102). -/
def effect (s : State) : Ev → State
  | .csAssert   => csAssert s
  | .csDeassert => csDeassert s
  | .sckRise b  => sckRise b s
  | .sckFall    => sckFall s

/-- Keeping the model's records over an event from `s` to `s'`: on every event the changes of the local selects; on a rising
edge within an assertion what the master samples on `sdo` at that edge (R75), the forwarded clock, and one observation
instant. Log entries 5 and 6. -/
def observe (s s' : State) : Ev → State
  | .sckRise b =>
    { s' with
      downstream := s'.downstream ++ selectChanges s s' ++ clockRises s s' b
      sdoSeen := if s.act then s'.sdoSeen ++ [sdo s] else s'.sdoSeen
      draws := if s.act then s'.draws + 1 else s'.draws }
  | .csAssert   => { s' with downstream := s'.downstream ++ selectChanges s s' }
  | .csDeassert => { s' with downstream := s'.downstream ++ selectChanges s s' }
  | .sckFall    => { s' with downstream := s'.downstream ++ selectChanges s s' }

/-- One bus event (R90): refused where level signals cannot produce it (R103). -/
def applyEvent (ev : Ev) (s : State) : Host.Outcome State Fault Refusal :=
  if legal s ev then .next (observe s (effect s ev) ev) else .refused (.illegal ev)

/-- A run of bus events; the run does not continue past a refusal (R103). -/
def runEvents : List Ev → State → Host.Outcome State Fault Refusal
  | [], s => .next s
  | ev :: evs, s =>
    match applyEvent ev s with
    | .next s'   => runEvents evs s'
    | .fault r   => .fault r
    | .refused r => .refused r

/-- The remembered clock level takes the sample's level, and a clock edge in the same sample is discarded (R106, R107). -/
def withClockLevel (sck : Bool) : Host.Outcome State Fault Refusal → Host.Outcome State Fault Refusal
  | .next s    => .next { s with sckQ := sck }
  | .fault r   => .fault r
  | .refused r => .refused r

/-- The state part of `onClockEdge(cs_pin, sck, sdi)` (R106). The value it returns is `sdo` of the state it gives. -/
def onClockEdge (csPin sck sdi : Bool) (s : State) : Host.Outcome State Fault Refusal :=
  if (csPin == s.cfg.csActiveLevel) != s.act then
    withClockLevel sck (applyEvent (if csPin == s.cfg.csActiveLevel then .csAssert else .csDeassert) s)
  else if sck != s.sckQ then applyEvent (if sck then .sckRise sdi else .sckFall) s
  else .next s

/-- Recording what `onClockEdge` returns, which is one more observation instant (R106, R122). -/
def recordSample : Host.Outcome State Fault Refusal → Host.Outcome State Fault Refusal
  | .next s    => .next { s with sdoOut := s.sdoOut ++ [sdo s], draws := s.draws + 1 }
  | .fault r   => .fault r
  | .refused r => .refused r

/-- Power-on under a configuration (R46, R115, R116, R182): no machine is built where it is not admitted. -/
def powerOn (c : Config) : Host.Outcome State Fault Refusal :=
  match configError c with
  | some e => .refused (.configError e)
  | none   => .next (State.powerOnState c)

end Sys2Proof.Machine
end

