-- ==== Sys2Proof/Machine/Frame.lean ====
section
/-! DEFINITION. A frame as the bus events of R87, and the run of a transaction over the event rules. -/

namespace Sys2Proof.Machine

/-- The clocks that carry the bits (R87): for each bit a rising edge, then a falling edge. -/
def clocks : List Bool → List Ev
  | [] => []
  | b :: bs => .sckRise b :: .sckFall :: clocks bs

/-- What comes before the first bit. The clock is lowered if it is high (R93, corner cases). Where chip-select is asserted
and a frame of a back-to-back block is complete, the idle clock comes first (R77, R85, R98); its `sdi` bit is discarded. -/
def leadIn (s : State) : List Ev :=
  (if s.act then [] else [.csAssert]) ++ (if s.sckQ then [.sckFall] else []) ++
    (if s.act && s.cfg.backToBack && decide (s.n = 0) then [.sckRise false, .sckFall] else [])

/-- What comes after the last bit: chip-select is deasserted where this burst asserted it (R85, R87). -/
def leadOut (s : State) : List Ev := if s.act then [] else [.csDeassert]

/-- The bus events by which the master sends a burst of bits from state `s` (R85, R87). Log entry 7. -/
def burstEvents (s : State) (bits : List Bool) : List Ev := leadIn s ++ clocks bits ++ leadOut s

/-- The master sends a burst of bits. -/
def runBurst (bits : List Bool) (s : State) : Host.Outcome State Fault Refusal := runEvents (burstEvents s bits) s

/-- `XFER a, we, d` (R85, R87). -/
def xfer (a : Addr) (we : Bool) (d : Data) (s : State) : Host.Outcome State Fault Refusal :=
  runBurst (frameBits s.cfg.dataW a we d) s

end Sys2Proof.Machine
end

