-- ==== Sys2Proof/Machine/Group.lean ====
section
/-! DEFINITION. The meaning of the group transaction (R160). The strobe is done where the local select ends (R94, R101,
R154). -/

namespace Sys2Proof.Machine

/-- `GRP_XFER i, d` (R160): the frame with `a[3:2] = 0b11` and `a[1:0] = i`, under `ADDR_MAP = GROUP`; `we` is sent and
ignored. -/
def execGrpXfer (hi : BitVec 3) (i : BitVec 2) (we : Bool) (d : Data) (s : State) : Host.Outcome State Fault Refusal :=
  xfer (addrOf hi 0b11#2 i) we d s

end Sys2Proof.Machine
end

