-- ==== Sys2Proof/Machine/PassThrough.lean ====
section
/-! DEFINITION. The meanings of the pass-through transactions (R143 to R145). The relay is done by the registered local
select (R100, R101) and the output functions (R122, R137 to R139). -/

namespace Sys2Proof.Machine

/-- `PLL_XFER c, d` (R143): the frame with `a[3:2] = 0b01` and `a[1:0] = c`; `we` is sent and ignored. -/
def execPllXfer (hi : BitVec 3) (c : BitVec 2) (we : Bool) (d : Data) (s : State) : Host.Outcome State Fault Refusal :=
  xfer (addrOf hi 0b01#2 c) we d s

/-- `ATT_XFER c, d` (R144): the frame with `a[3:2] = 0b10` and `a[1:0] = c`; `we` is sent and ignored. -/
def execAttXfer (hi : BitVec 3) (c : BitVec 2) (we : Bool) (d : Data) (s : State) : Host.Outcome State Fault Refusal :=
  xfer (addrOf hi 0b10#2 c) we d s

/-- `MEZ_XFER c, d` (R145): the frame with `a[3:2] = 0b11` and `a[1:0] = c`, under `ADDR_MAP = MEZZ`; `we` is sent and
ignored. -/
def execMezXfer (hi : BitVec 3) (c : BitVec 2) (we : Bool) (d : Data) (s : State) : Host.Outcome State Fault Refusal :=
  xfer (addrOf hi 0b11#2 c) we d s

end Sys2Proof.Machine
end

