-- ==== Sys2Proof/Machine/Register.lean ====
section
/-! DEFINITION. The meanings of the register transactions (R131, R132). What they do to the registers is done by the
read-request and the terminal edge of their frame (R96, R97). -/

namespace Sys2Proof.Machine

/-- `REG_RD r` (R131): the frame with `a[3:2] = 0b00`, `a[1:0] = r` and `we = 0`. -/
def execRegRd (hi : BitVec 3) (r : BitVec 2) (d : Data) (s : State) : Host.Outcome State Fault Refusal :=
  xfer (addrOf hi 0b00#2 r) false d s

/-- `REG_WR r, d` (R132): the frame with `a[3:2] = 0b00`, `a[1:0] = r` and `we = 1`. -/
def execRegWr (hi : BitVec 3) (r : BitVec 2) (d : Data) (s : State) : Host.Outcome State Fault Refusal :=
  xfer (addrOf hi 0b00#2 r) true d s

end Sys2Proof.Machine
end

