-- ==== Sys2Proof/Machine/Dispatch.lean ====
section
/-! DEFINITION. The dispatch from a transaction to its meaning. -/

namespace Sys2Proof.Machine

def exec (i : Instr) (s : State) : Host.Outcome State Fault Refusal :=
  match i with
  | .regRd hi r d => Sys2Proof.Machine.execRegRd hi r d s
  | .regWr hi r d => Sys2Proof.Machine.execRegWr hi r d s
  | .pllXfer hi c we d => Sys2Proof.Machine.execPllXfer hi c we d s
  | .attXfer hi c we d => Sys2Proof.Machine.execAttXfer hi c we d s
  | .grpXfer hi t we d => Sys2Proof.Machine.execGrpXfer hi t we d s
  | .mezXfer hi c we d => Sys2Proof.Machine.execMezXfer hi c we d s

end Sys2Proof.Machine
end

