-- ==== Sys2Proof/Machine/Inputs.lean ====
section
/-! DEFINITION. What one input of the outside does to the machine (R19, R38, R85, R90, R106). -/

namespace Sys2Proof.Machine

/-- The pinned levels of an environment input with binding `e` pinned at a level, or left free. -/
def pin {α : Type} (pins : List (Nat × α)) (e : Nat) (v : Option α) : List (Nat × α) :=
  (v.map fun x => (e, x)).toList ++ pins.filter fun p => p.1 != e

/-- One input of the outside. A burst of exactly `L` bits is a frame, and `exec` runs the transaction it decodes to; a
shorter or longer burst runs edge by edge (R58, R98). -/
def applyInput (x : Input) (s : State) : Host.Outcome State Fault Refusal :=
  match x with
  | .burst bits =>
    match decode s.cfg bits with
    | .ok i    => exec i s
    | .error _ => runBurst bits s
  | .event ev => applyEvent ev s
  | .sample csPin sck sdi => recordSample (onClockEdge csPin sck sdi s)
  | .driveStatus e v => .next { s with statusPin := pin s.statusPin e v }
  | .driveExtSdo e b => .next { s with extSdoPin := pin s.extSdoPin e b }

/-- The machine takes the next input of the outside; without one it is idle and nothing changes (R108, R177). -/
def takeInput (s : State) : Host.Outcome State Fault Refusal :=
  match s.pending with
  | []        => .next s
  | x :: rest => applyInput x { s with pending := rest }

end Sys2Proof.Machine
end

