-- ==== Sys2Proof/Machine/Step.lean ====
section
/-! DEFINITION. The step of the machine, and how the host places a transaction where the next step takes it. -/

namespace Sys2Proof.Machine

/-- One step: nothing runs under a configuration that is not admitted (R116, R182); otherwise the machine takes the next
input. -/
def step (s : State) : Host.Outcome State Fault Refusal :=
  match configError s.cfg with
  | some e => .refused (.configError e)
  | none   => takeInput s

/-- The state with an opcode-table word's frame as the next input of the master. -/
def State.withFetchWord (s : State) (nbits w : Nat) : State :=
  { s with pending := .burst (tableBits s.cfg.frameLen nbits w) :: s.pending }

end Sys2Proof.Machine
end

