-- ==== Sys2Proof/Safety.lean ====
section
/-! DEFINITION. What counts as a sound state of the engine, and the terms the statements use. Every clause cites the rule of
spec/ it formalises. -/

namespace Sys2Proof.Machine

/-- The frame-initial shift state (R44, R92). -/
abbrev shiftInitial (s : State) : Prop :=
  s.n = s.cfg.frameLen ∧ s.hdr = 0#8 ∧ s.din = 0#32 ∧ s.sel = none ∧ s.sout = none ∧ s.sdoQ = none ∧ s.lcs = false

/-- The counter is in `0..L` (R24). -/
abbrev CounterInRange (s : State) : Prop := s.n ≤ s.cfg.frameLen

/-- While chip-select is deasserted the shift state is frame-initial (R44, R102). -/
abbrev IdleIsInitial (s : State) : Prop := s.act = false → shiftInitial s

/-- In the ADDR phase nothing is selected, loaded, driven or received (R28 to R31, R44). -/
abbrev AddrPhaseClear (s : State) : Prop :=
  s.cfg.dataW < s.n → s.din = 0#32 ∧ s.sel = none ∧ s.sout = none ∧ s.sdoQ = none ∧ s.lcs = false

/-- In the ADDR phase the header register holds no more than the bits sampled so far (R26). -/
abbrev HeaderHoldsSampledBits (s : State) : Prop :=
  s.cfg.dataW < s.n → s.hdr.toNat < 2 ^ (s.cfg.frameLen - s.n)

/-- From the read-request on, the selection is the match of the captured address (R26, R28, R120). -/
abbrev SelectionIsMatch (s : State) : Prop :=
  s.n ≤ s.cfg.dataW → s.sel = route s.cfg (headerAddr s.hdr)

/-- The selection is a binding of kind `k`. -/
abbrev selects (s : State) (k : EndpointKind) : Prop := s.sel.any (fun e => kindOf s.cfg e = some k) = true

/-- The selection is a PassThrough or Group binding. -/
abbrev selectsDevice (s : State) : Prop := s.sel.any (hasLink s.cfg) = true

/-- The outgoing shift chain is loaded exactly when a Register binding is selected (R29). -/
abbrev ChainLoadedForRegister (s : State) : Prop := s.sout.isSome = true ↔ selects s .register

/-- The local select is true only for a PassThrough or Group selection (R31). -/
abbrev LocalSelectHasLink (s : State) : Prop := s.lcs = true → s.act = true ∧ selectsDevice s

/-- The registered output bit is driven only from the chain (R30, R122, R123). -/
abbrev OutputComesFromChain (s : State) : Prop := s.sdoQ.isSome = true → s.sout.isSome = true

/-- With the clock low in the DATA phase, the registered output bit is the chain's bit the master samples next (R60, R100). -/
abbrev NextReadBitReady (s : State) : Prop :=
  s.act = true ∧ s.sckQ = false ∧ 0 < s.n ∧ s.n ≤ s.cfg.dataW → s.sdoQ = s.sout.map fun v => v.getLsbD (s.n - 1)

/-- In the DATA phase from its first falling edge on, the local select is active exactly for a PassThrough or Group selection
(R136). -/
abbrev LocalSelectReady (s : State) : Prop :=
  s.act = true ∧ 0 < s.n ∧ s.n ≤ s.cfg.dataW ∧ (s.sckQ = false ∨ s.n < s.cfg.dataW) → (s.lcs = true ↔ selectsDevice s)

/-- Before its first falling edge the DATA phase has no local select yet (R136, D11). -/
abbrev LocalSelectNotEarly (s : State) : Prop := s.sckQ = true ∧ s.n = s.cfg.dataW → s.lcs = false

/-- In the DONE phase with the clock low, the local select has ended and no bit is driven (R101). -/
abbrev DoneIsQuiet (s : State) : Prop := s.act = true ∧ s.sckQ = false ∧ s.n = 0 → s.lcs = false ∧ s.sdoQ = none

/-- Every data value has the data width (R8, R21). -/
abbrev ValuesFit (s : State) : Prop :=
  dataFits s.cfg s.din = true ∧ s.sout.all (dataFits s.cfg) = true ∧ ∀ p ∈ s.regs, dataFits s.cfg p.2 = true

/-- The bindings that hold a committed value (`RegB` of R21), positions counted from `i`. -/
def storedFrom (i : Nat) : List Binding → List Nat
  | [] => []
  | b :: bs => if isStored b then i :: storedFrom (i + 1) bs else storedFrom (i + 1) bs

/-- The register file holds one value for each WO and RW Register binding, keys rising (R21, R34). -/
abbrev RegFileShape (s : State) : Prop := s.regs.map Prod.fst = storedFrom 0 s.cfg.bindings

/-- A latch line is high only from the end of a group frame to the next frame's start (R154, R155). -/
abbrev LatchLowInFrame (s : State) : Prop := s.act = true ∧ (0 < s.n ∨ s.lcs = true) → s.latch = 0#4

/-- Without a Group binding no latch line is ever high (R159). The clause looks at the bindings, not at the address map (log
entry 13). -/
abbrev NoGroupNoLatch (s : State) : Prop := (∀ b ∈ s.cfg.bindings, b.kind ≠ .group) → s.latch = 0#4

/-- In a group frame, the index a strobe would use is the frame's own (R150, R151). -/
abbrev IndexIsCurrent (s : State) : Prop :=
  s.n ≤ s.cfg.dataW ∧ selects s .group → s.lastIndex = addrIndex (headerAddr s.hdr)

/-- The invariant of the machine. -/
abbrev Inv (s : State) : Prop :=
  CounterInRange s ∧ IdleIsInitial s ∧ AddrPhaseClear s ∧ HeaderHoldsSampledBits s ∧ SelectionIsMatch s ∧
  ChainLoadedForRegister s ∧ LocalSelectHasLink s ∧ OutputComesFromChain s ∧ NextReadBitReady s ∧ LocalSelectReady s ∧
  LocalSelectNotEarly s ∧ DoneIsQuiet s ∧ ValuesFit s ∧ RegFileShape s ∧ LatchLowInFrame s ∧ NoGroupNoLatch s ∧ IndexIsCurrent s

/-- The cause R163's table gives for an error, said of the configuration itself and not by the checks that find it. Patterns
and masks are compared on 7 bits (log entries 8 and 14). -/
def causeHolds (c : Config) : ConfigError → Prop
  | .overlap i j => i < j ∧ ∃ x y, c.bindings[i]? = some x ∧ c.bindings[j]? = some y ∧
      (patternBits x ^^^ patternBits y) &&& maskBits x &&& maskBits y = 0#7
  | .patternOutsideMask i => ∃ x, c.bindings[i]? = some x ∧ patternBits x &&& ~~~maskBits x ≠ 0#7
  | .width i => ∃ x, c.bindings[i]? = some x ∧ (128 ≤ x.pattern ∨ 128 ≤ x.mask)
  | .fanoutNotGroup i => ∃ x, c.bindings[i]? = some x ∧ x.fanout = true ∧ x.kind ≠ .group
  | .multipleGroups is =>
      2 ≤ is.length ∧ is.Nodup ∧ ∀ i, i ∈ is ↔ ∃ x, c.bindings[i]? = some x ∧ x.kind = .group
  | .dataWidth n => n = c.dataW ∧ (n = 0 ∨ 32 < n)
  | .missingRegParam i => ∃ x, c.bindings[i]? = some x ∧ x.kind = .register ∧
      (x.regKind = none ∨ x.regKind ≠ some .ro ∧ x.regReset = none)

/-- The configuration's table is the canonical one of R118 under its address map, with any fan-out flag, kinds and reset
values. -/
abbrev CanonicalTable (c : Config) : Prop :=
  ∃ (g : Bool) (k : Fin 4 → Option RegKind) (v : Fin 4 → Option Data), c.bindings = canonicalBindings c.addrMap g k v

/-- The position in the canonical table of the binding that address `a` selects (R51, R118): the nibble, except that the
one Group binding stands at position 12. -/
def canonicalPosition (m : AddrMap) (a : Addr) : Nat :=
  match m with
  | .group => min (addrNibble a).toNat 12
  | .mezz  => (addrNibble a).toNat

/-- The read value of register `e` when it is read at observation instant `k` (R127): the stored value for RW, the status
input for RO and WO. -/
def readValueAt (s : State) (e : Nat) (k : Nat) : Data :=
  if regKindOf s.cfg e = some .rw then regGet s.regs e
  else fitData s.cfg.dataW ((s.statusPin.lookup e).getD (Config.freeStatus e k))

/-- The bits a device on binding `e` returns at `count` observation instants from `k` on (R141). -/
def deviceBits (s : State) (e : Nat) (k count : Nat) : List (Option Bool) :=
  (List.range count).map fun j => some ((s.extSdoPin.lookup e).getD (Config.freeExtSdo e (k + j)))

/-- The names of the canonical table's rows in its order (R118). -/
def canonicalNames (m : AddrMap) : List String :=
  ["REG0", "REG1", "REG2", "REG3", "PLL0", "PLL1", "PLL2", "PLL3", "ATT0", "ATT1", "ATT2", "ATT3"] ++
  match m with
  | .group => ["GRP"]
  | .mezz  => ["MEZ0", "MEZ1", "MEZ2", "MEZ3"]

/-- What the canonical table holds at the nibble of an address (R51). -/
def canonicalKind (m : AddrMap) (a : Addr) : EndpointKind :=
  if addrNibble a < 4#4 then .register
  else if addrNibble a < 12#4 then .passThrough
  else match m with
    | .group => .group
    | .mezz  => .passThrough

/-- The state an idle engine is in after a complete frame, apart from what the frame did to its endpoint and to the records:
the frame reset has been applied, the clock is low, and the latch lines were cleared at the frame's start (R87, R94, R155). -/
def afterFrame (s : State) : State := { frameInit s with sckQ := false, latch := 0#4 }

end Sys2Proof.Machine
end

