-- ==== Sys2Proof/Certificates/Slice0/Obligations.lean ====
section
/-! DEFINITION. The statements for the provers. Each says in its docstring which rule of spec/ it formalises, and where it
rests on a decision of the spec (92_eei_decisions.md) or of the model (the assumption log) it names it. -/

open Sys2Proof Sys2Proof.Machine

/-! ## Configuration and routing -/

/-- R46, with the spec's own choices D33, D10 and D17: power-on under any admitted configuration gives every field the value
of R46's table. -/
def Obligations.PowerOnGivesEveryFieldItsResetValue : Prop :=
  ∀ c : Config, admitted c = true → ∃ s, powerOn c = .next s ∧ s.cfg = c ∧ s.act = false ∧ s.sckQ = false ∧ shiftInitial s ∧
    RegFileShape s ∧
    (∀ e b v, c.bindings[e]? = some b → isStored b = true → b.regReset = some v → regGet s.regs e = fitData c.dataW v) ∧
    s.lastIndex = 0#2 ∧ s.latch = 0#4

/-- R116 and R182, with the spec's own choice D20: a configuration that is not admitted builds no machine, and no state under
it takes a step (the configuration stands in State by the model's choice, log entry 3). -/
def Obligations.UnadmittedConfigurationNeverRuns : Prop :=
  ∀ (c : Config) (e : ConfigError), configError c = some e →
    powerOn c = .refused (.configError e) ∧ ∀ s : State, s.cfg = c → step s = .refused (.configError e)

/-- R115, with the spec's own choices D19 and D27: admission is the conjunction of the seven checks. -/
def Obligations.AdmissionIsTheSevenChecks : Prop :=
  ∀ c : Config, admitted c = true ↔
    (∀ b ∈ c.bindings, b.pattern < 128 ∧ b.mask < 128) ∧
    (∀ b ∈ c.bindings, patternBits b &&& ~~~maskBits b = 0#7) ∧
    c.bindings.Pairwise (fun x y => intersects x y = false) ∧
    (∀ b ∈ c.bindings, b.fanout = true → b.kind = .group) ∧
    (c.bindings.filter fun b => b.kind = .group).length ≤ 1 ∧
    (1 ≤ c.dataW ∧ c.dataW ≤ 32) ∧
    (∀ b ∈ c.bindings, b.kind = .register →
      b.regKind.isSome = true ∧ (b.regKind ≠ some .ro → b.regReset.isSome = true))

/-- R163, with the spec's own choices D19, D20 and D41: the codes are numbered as in R163's table; the error reported is that of
a failing check, and its cause by the table holds of the configuration, with the information the table records; no failing
check and no other cause that holds has a smaller code. That the causes 1 and 2 compare patterns and masks on 7 bits is the
model's choice (log entries 8 and 14). -/
def Obligations.ReportedErrorHasTheSmallestCode : Prop :=
  (∀ (i j n : Nat) (is : List Nat), errorCode (.overlap i j) = 1 ∧ errorCode (.patternOutsideMask i) = 2 ∧
    errorCode (.width i) = 3 ∧ errorCode (.fanoutNotGroup i) = 4 ∧ errorCode (.multipleGroups is) = 5 ∧
    errorCode (.dataWidth n) = 6 ∧ errorCode (.missingRegParam i) = 7) ∧
  ∀ (c : Config) (e : ConfigError), configError c = some e →
    (e ∈ [checkOverlap c, checkPattern c, checkWidth c, checkFanout c, checkGroups c, checkDataWidth c,
          checkRegParams c].filterMap id ∧
      ∀ e' ∈ [checkOverlap c, checkPattern c, checkWidth c, checkFanout c, checkGroups c, checkDataWidth c,
          checkRegParams c].filterMap id, errorCode e ≤ errorCode e') ∧
    causeHolds c e ∧ ∀ e', causeHolds c e' → errorCode e ≤ errorCode e'

/-- R163, with the spec's own choice D41: the overlap reported is the first intersecting pair in list order. That of several
pairs the first is the one with the smallest `i`, and of those with that `i` the one with the smallest `j`, is the model's
choice (log entry 15); so is that a pair counts as intersecting by R113's formula also where a pattern has a bit outside its
mask (log entry 14). -/
def Obligations.ReportedOverlapIsTheFirstPair : Prop :=
  ∀ (c : Config) (i j : Nat), configError c = some (.overlap i j) →
    (i < j ∧ ∃ x y, c.bindings[i]? = some x ∧ c.bindings[j]? = some y ∧ intersects x y = true) ∧
    ∀ (i' j' : Nat) (x y : Binding), i' < j' → c.bindings[i']? = some x → c.bindings[j']? = some y →
      intersects x y = true → i < i' ∨ (i = i' ∧ j ≤ j')

/-- R113: for bindings whose patterns lie in their masks (R115(b)), the intersection test succeeds exactly when some address
matches both. -/
def Obligations.IntersectionTestFindsExactlyTheCommonAddresses : Prop :=
  ∀ b1 b2 : Binding, patternInMask b1 = true → patternInMask b2 = true →
    (((patternBits b1 ^^^ patternBits b2) &&& maskBits b1 &&& maskBits b2 = 0#7) ↔
      ∃ a : Addr, binds b1 a = true ∧ binds b2 a = true) ∧
    (intersects b1 b2 = true ↔ ∃ a : Addr, binds b1 a = true ∧ binds b2 a = true)

/-- R114: a registration fails exactly when the new binding intersects one registered earlier, else the binding joins the
table, and whether a list of registrations succeeds does not depend on the order of the calls. The statement takes in bindings
with a pattern bit outside the mask, where R113 withholds its formula: that they intersect by that formula too is the model's
choice (log entry 14). -/
def Obligations.RegistrationFailsExactlyOnOverlap : Prop :=
  (∀ (table : List Binding) (b : Binding),
    ((∃ x ∈ table, intersects b x = true) → ∃ e, registerEndpoint table b = .error e) ∧
    ((∀ x ∈ table, intersects b x = false) → registerEndpoint table b = .ok (table ++ [b]))) ∧
  ∀ bs bs' : List Binding, bs.Perm bs' → registerAll bs = .ok bs → registerAll bs' = .ok bs'

/-- R112: in an admitted configuration `match(a)` is the one binding that binds `a`, and `none` exactly if no binding does. -/
def Obligations.RoutingFindsTheOneBinding : Prop :=
  ∀ (c : Config) (a : Addr), admitted c = true →
    (∀ e, route c a = some e ↔ ∃ b, c.bindings[e]? = some b ∧ binds b a = true) ∧
    (route c a = none ↔ ∀ b ∈ c.bindings, binds b a = false)

/-- R51: the canonical table decodes the low nibble and ignores the upper three bits: every address selects the row its
nibble names. -/
def Obligations.CanonicalTableDecodesTheLowNibble : Prop :=
  ∀ c : Config, CanonicalTable c → ∀ a : Addr,
    route c a = some (canonicalPosition c.addrMap a) ∧
    kindOf c (canonicalPosition c.addrMap a) = some (canonicalKind c.addrMap a) ∧
    (c.bindings[canonicalPosition c.addrMap a]?).map Binding.name =
      (canonicalNames c.addrMap)[canonicalPosition c.addrMap a]? ∧
    ∀ a' : Addr, addrNibble a' = addrNibble a → route c a' = route c a

/-- R119 (derived there): the canonical table is admitted, with every fan-out flag and every complete choice of the register
parameters. -/
def Obligations.CanonicalTableIsAdmitted : Prop :=
  ∀ (c : Config) (g : Bool) (k : Fin 4 → Option RegKind) (v : Fin 4 → Option Data),
    c.bindings = canonicalBindings c.addrMap g k v → 1 ≤ c.dataW → c.dataW ≤ 32 →
    (∀ r, (k r).isSome = true ∧ (k r ≠ some .ro → (v r).isSome = true)) → admitted c = true

/-! ## Encoding -/

/-- R70: a frame has `L = 8 + N` bits, and the bit at each edge is the one the table of R70 names. -/
def Obligations.FrameBitsStandInTheOrderOfTheFormat : Prop :=
  ∀ (c : Config) (i : Instr), (encode c i).length = 8 + c.dataW ∧
    (∀ k, 1 ≤ k → k ≤ 7 → (encode c i)[k - 1]? = some (i.addr.getLsbD (7 - k))) ∧
    (encode c i)[7]? = some i.we ∧
    ∀ k, 9 ≤ k → k ≤ 8 + c.dataW → (encode c i)[k - 1]? = some (i.data.getLsbD (8 + c.dataW - k))

/-- R71 (derived there): the bit on the wire at edge `k` is bit `L - k` of the frame word. -/
def Obligations.WireBitsAreTheFrameWordsBits : Prop :=
  ∀ (c : Config) (i : Instr), dataFits c i.data = true → ∀ k, 1 ≤ k → k ≤ c.frameLen →
    (encode c i)[k - 1]? = some ((frameWord c i).testBit (c.frameLen - k))

/-- R88 (derived there): the eight frame words of R88's table decode to the transactions they stand for, and so does the word of
`MEZ 3, 1` (R145). The words are decoded under CFG-T, the configuration the model chose for reset (log entry 4), and the last
under its MEZZ variant. -/
def Obligations.WrittenOutWordsDecode : Prop :=
  decode boardConfig (msbFirst 24 0x01BEEF#24) = .ok (.regWr 0 0 0xBEEF) ∧
  decode boardConfig (msbFirst 24 0x000000#24) = .ok (.regRd 0 0 0) ∧
  decode boardConfig (msbFirst 24 0x020000#24) = .ok (.regRd 0 1 0) ∧
  decode boardConfig (msbFirst 24 0x071234#24) = .ok (.regWr 0 3 0x1234) ∧
  decode boardConfig (msbFirst 24 0x0C00A5#24) = .ok (.pllXfer 0 2 false 0xA5) ∧
  decode boardConfig (msbFirst 24 0x12003F#24) = .ok (.attXfer 0 1 false 0x3F) ∧
  decode boardConfig (msbFirst 24 0x1C8001#24) = .ok (.grpXfer 0 2 false 0x8001) ∧
  decode boardConfig (msbFirst 24 0xE10001#24) = .ok (.regWr 7 0 1) ∧
  decode (boardConfigWith .mezz) (msbFirst 24 0x1E0001#24) = .ok (.mezXfer 0 3 false 1)

/-- R81 (derived there): under each address map every header matches exactly one row of R80, and the decoder gives that row. -/
def Obligations.EveryHeaderHasExactlyOneRow : Prop :=
  ∀ (m : AddrMap) (h : Header) (d : Data), ∃ row : OpRow,
    ((opRows m).filter fun r => h &&& r.mask = r.value) = [row] ∧ row.mnemonic = (decodeHeader m h d).mnemonic

/-- Decoding an encoded transaction gives it back, for every well-formed transaction of every row, every operand and every
data width (R80, R81; R81 is derived there). That data stands in 32 bits of which `N` count is the model's choice (log entry
2). -/
def Obligations.DecodeInvertsEncode : Prop :=
  ∀ (c : Config) (i : Instr), c.dataW ≤ 32 → i.wellFormed c = true → decode c (encode c i) = .ok i

/-- Encoding a decoded frame gives its bits back, so no bit of a frame is dropped, and what is decoded is well formed (R81,
R82; R81 is derived there). That data stands in 32 bits of which `N` count is the model's choice (log entry 2). -/
def Obligations.EncodeInvertsDecode : Prop :=
  ∀ (c : Config) (bits : List Bool) (i : Instr), c.dataW ≤ 32 → decode c bits = .ok i →
    encode c i = bits ∧ i.wellFormed c = true

/-- R57 and R82: every list of exactly `L` bits decodes; a shorter or longer one is rejected by name. -/
def Obligations.ExactlyTheFullLengthDecodes : Prop :=
  ∀ (c : Config) (bits : List Bool),
    (bits.length = c.frameLen → ∃ i, decode c bits = .ok i) ∧
    (bits.length < c.frameLen → decode c bits = .error .short) ∧
    (c.frameLen < bits.length → decode c bits = .error .long)

/-! ## The step -/

/-- The model's choice (log entry 1): what the outside does next is a list of inputs, and a step takes the oldest. When that is
a burst whose bits decode to a transaction, the step is `exec` of that transaction, with the input taken. No rule of the spec
says this; R85 and R87 say what a transaction's bits and events are. -/
def Obligations.StepRunsTheDecodedTransaction : Prop :=
  ∀ (s : State) (bits : List Bool) (rest : List Input) (i : Instr), admitted s.cfg = true →
    s.pending = .burst bits :: rest → decode s.cfg bits = .ok i → step s = exec i { s with pending := rest }

/-- The other inputs, the list being the model's choice (log entry 1): a burst of another length runs edge by edge, an event is one bus event (R90), a sample is
`onClockEdge`, which returns `sdo` of the state it gives (R106), a driven environment input takes its level (R38), and without an input nothing changes (R108, R177). -/
def Obligations.StepTakesTheNextInput : Prop :=
  ∀ s : State, admitted s.cfg = true →
    (s.pending = [] → step s = .next s) ∧
    (∀ bits rest, s.pending = .burst bits :: rest → bits.length ≠ s.cfg.frameLen →
      step s = runBurst bits { s with pending := rest }) ∧
    (∀ ev rest, s.pending = .event ev :: rest → step s = applyEvent ev { s with pending := rest }) ∧
    (∀ csPin sck sdi rest t, s.pending = .sample csPin sck sdi :: rest →
      onClockEdge csPin sck sdi { s with pending := rest } = .next t →
      step s = .next { t with sdoOut := t.sdoOut ++ [sdo t], draws := t.draws + 1 }) ∧
    (∀ e v rest, s.pending = .driveStatus e v :: rest → ∃ p, step s = .next { s with pending := rest, statusPin := p } ∧
      p.lookup e = v ∧ ∀ e', e' ≠ e → p.lookup e' = s.statusPin.lookup e') ∧
    (∀ e b rest, s.pending = .driveExtSdo e b :: rest → ∃ p, step s = .next { s with pending := rest, extSdoPin := p } ∧
      p.lookup e = b ∧ ∀ e', e' ≠ e → p.lookup e' = s.extSdoPin.lookup e')

/-- R162: at run time no burst of bits, no sample of the pins and no environment input stops the machine. -/
def Obligations.NothingStopsTheMachineAtRunTime : Prop :=
  ∀ (s : State) (x : Input) (rest : List Input), admitted s.cfg = true → s.pending = x :: rest → (∀ ev, x ≠ .event ev) →
    ∃ t, step s = .next t

/-- R103, with the spec's own choice D38: exactly the events that level signals cannot produce are refused, by name. -/
def Obligations.ExactlyTheImpossibleEventsAreRefused : Prop :=
  ∀ (s : State) (ev : Ev),
    ((ev = .csAssert ∧ s.act = true ∨ ev = .csDeassert ∧ s.act = false ∨ (∃ b, ev = .sckRise b) ∧ s.sckQ = true ∨
        ev = .sckFall ∧ s.sckQ = false) → applyEvent ev s = .refused (.illegal ev)) ∧
    (¬ (ev = .csAssert ∧ s.act = true ∨ ev = .csDeassert ∧ s.act = false ∨ (∃ b, ev = .sckRise b) ∧ s.sckQ = true ∨
        ev = .sckFall ∧ s.sckQ = false) → ∃ t, applyEvent ev s = .next t)

/-! ## The bus events -/

/-- R93, with the spec's own choice D15 for the latch: `CS_ASSERT` starts a frame in the frame-initial shift state with the
latch lines cleared, and changes nothing else. -/
def Obligations.ChipSelectAssertionStartsAFrame : Prop :=
  ∀ s : State, s.act = false → applyEvent .csAssert s = .next { frameInit s with act := true, latch := 0#4 }

/-- R94, with the spec's own choice D37: `CS_DEASSERT` applies the frame reset; it strobes the group line of a complete frame
whose local select is still active, records a short frame, and leaves registers and index alone. -/
def Obligations.ChipSelectDeassertionEndsOrAbortsTheFrame : Prop :=
  ∀ s : State, s.act = true → ∃ t, applyEvent .csDeassert s = .next t ∧
    t.act = false ∧ shiftInitial t ∧ t.cfg = s.cfg ∧ t.sckQ = s.sckQ ∧ t.regs = s.regs ∧ t.lastIndex = s.lastIndex ∧
    t.sdoSeen = s.sdoSeen ∧ t.draws = s.draws ∧
    (s.n = 0 ∧ s.lcs = true ∧ selects s .group →
      t.latch = setLatchLine s.latch s.lastIndex ∧ t.history = s.history ++ [.latchStrobe s.lastIndex]) ∧
    (¬ (s.n = 0 ∧ s.lcs = true ∧ selects s .group) → t.latch = s.latch) ∧
    (0 < s.n ∧ s.n < s.cfg.frameLen → t.history = s.history ++ [.frameAborted (s.cfg.frameLen - s.n)]) ∧
    (¬ (0 < s.n ∧ s.n < s.cfg.frameLen) ∧ ¬ (s.n = 0 ∧ s.lcs = true ∧ selects s .group) → t.history = s.history)

/-- R95: a rising edge of the ADDR phase shifts the sampled bit into the header and counts down; before the read-request edge
nothing else of the engine changes. -/
def Obligations.AddressPhaseEdgeShiftsTheHeader : Prop :=
  ∀ (s : State) (b : Bool), s.act = true → s.sckQ = false → s.cfg.dataW < s.n → ∃ t, applyEvent (.sckRise b) s = .next t ∧
    t.sckQ = true ∧ t.hdr = s.hdr.shiftConcat b ∧ t.n = s.n - 1 ∧ t.act = true ∧ t.cfg = s.cfg ∧ t.din = s.din ∧
    t.sdoQ = s.sdoQ ∧ t.lcs = s.lcs ∧ t.regs = s.regs ∧ t.latch = s.latch ∧
    (s.n - 1 ≠ s.cfg.dataW → t.sel = s.sel ∧ t.sout = s.sout ∧ t.lastIndex = s.lastIndex ∧ t.history = s.history) ∧
    (s.n - 1 = s.cfg.dataW → ∃ m, t.history = s.history ++ [.readRequest (headerAddr t.hdr) (headerWe t.hdr) m])

/-- R96: the read-request selects the match of the address, loads the chain from a Register binding only, and updates the
index for a Group binding only. -/
def Obligations.ReadRequestLoadsTheSelectedEndpoint : Prop :=
  ∀ (s : State) (b : Bool) (h : Header), s.act = true → s.sckQ = false → s.n = s.cfg.dataW + 1 → h = s.hdr.shiftConcat b →
    ∃ t, applyEvent (.sckRise b) s = .next t ∧ t.n = s.cfg.dataW ∧ t.hdr = h ∧ t.sel = route s.cfg (headerAddr h) ∧
      t.history = s.history ++ [.readRequest (headerAddr h) (headerWe h) t.sel] ∧ t.regs = s.regs ∧ t.latch = s.latch ∧
      t.act = true ∧ t.sckQ = true ∧ t.cfg = s.cfg ∧ t.din = s.din ∧ t.sdoQ = s.sdoQ ∧ t.lcs = s.lcs ∧
      (∀ e, t.sel = some e → kindOf s.cfg e = some .register →
        t.sout = some (readValueAt s e s.draws) ∧ t.lastIndex = s.lastIndex) ∧
      (∀ e, t.sel = some e → kindOf s.cfg e = some .group → t.sout = none ∧ t.lastIndex = addrIndex (headerAddr h)) ∧
      (∀ e, t.sel = some e → kindOf s.cfg e = some .passThrough → t.sout = none ∧ t.lastIndex = s.lastIndex) ∧
      (t.sel = none → t.sout = none ∧ t.lastIndex = s.lastIndex)

/-- R97, with the spec's own choice D5 for the `we = 1` condition: a rising edge of the DATA phase shifts the sampled bit into
the data register and counts down; the edge that makes `n = 0` completes the frame and commits to a Register selection. -/
def Obligations.DataPhaseEdgeShiftsAndTheLastOneCommits : Prop :=
  ∀ (s : State) (b : Bool) (d : Data), s.act = true → s.sckQ = false → 0 < s.n → s.n ≤ s.cfg.dataW →
    d = shiftData s.cfg.dataW s.din b → ∃ t, applyEvent (.sckRise b) s = .next t ∧
      t.sckQ = true ∧ t.din = d ∧ t.n = s.n - 1 ∧ t.act = true ∧ t.cfg = s.cfg ∧ t.hdr = s.hdr ∧ t.sel = s.sel ∧
      t.sout = s.sout ∧ t.sdoQ = s.sdoQ ∧ t.lcs = s.lcs ∧ t.lastIndex = s.lastIndex ∧ t.latch = s.latch ∧
      (s.n ≠ 1 → t.regs = s.regs ∧ t.history = s.history) ∧
      (s.n = 1 → headerWe s.hdr = true → ∀ e, s.sel = some e → kindOf s.cfg e = some .register →
        t.regs = committedRegs s.cfg s.regs e d ∧
        t.history = s.history ++ [.frameComplete (headerAddr s.hdr) true d, .writeCommit e d]) ∧
      (s.n = 1 → (headerWe s.hdr = false ∨ ¬ selects s .register) →
        t.regs = s.regs ∧ t.history = s.history ++ [.frameComplete (headerAddr s.hdr) (headerWe s.hdr) d])

/-- R98, with the spec's own choices D21 and D22: a rising edge after the frame is the idle clock of a back-to-back variant,
which restarts the frame; else it changes only the clock level. -/
def Obligations.RisingEdgeAfterTheFrameRestartsOrDoesNothing : Prop :=
  ∀ (s : State) (b : Bool), s.act = true → s.sckQ = false → s.n = 0 → ∃ t, applyEvent (.sckRise b) s = .next t ∧
    t.sckQ = true ∧ t.act = true ∧ t.cfg = s.cfg ∧ t.regs = s.regs ∧ t.lastIndex = s.lastIndex ∧ t.history = s.history ∧
    (s.cfg.backToBack = true → shiftInitial t ∧ t.latch = 0#4) ∧
    (s.cfg.backToBack = false → t.n = 0 ∧ t.hdr = s.hdr ∧ t.din = s.din ∧ t.sel = s.sel ∧ t.sout = s.sout ∧
      t.sdoQ = s.sdoQ ∧ t.lcs = s.lcs ∧ t.latch = s.latch)

/-- R100: a falling edge of the DATA phase drives the chain's next bit and, at the first such edge, asserts the local select
of a PassThrough or Group selection; nothing else of the engine changes. -/
def Obligations.FallingEdgeDrivesTheNextBit : Prop :=
  ∀ s : State, s.act = true → s.sckQ = true → 0 < s.n → s.n ≤ s.cfg.dataW → ∃ t, applyEvent .sckFall s = .next t ∧
    t.sckQ = false ∧
    (∀ v, s.sout = some v → t.sdoQ = some (v.getLsbD (s.n - 1))) ∧ (s.sout = none → t.sdoQ = none) ∧
    (s.n = s.cfg.dataW ∧ (selects s .passThrough ∨ selects s .group) → t.lcs = true) ∧
    (¬ (s.n = s.cfg.dataW ∧ (selects s .passThrough ∨ selects s .group)) → t.lcs = s.lcs) ∧
    t.act = true ∧ t.cfg = s.cfg ∧ t.n = s.n ∧ t.hdr = s.hdr ∧ t.din = s.din ∧ t.sel = s.sel ∧ t.sout = s.sout ∧
    t.regs = s.regs ∧ t.lastIndex = s.lastIndex ∧ t.latch = s.latch ∧ t.history = s.history

/-- R101, with the spec's own choices D11 and D15: a falling edge after the frame ends the local select and strobes the group
line if the local select was the Group binding's. -/
def Obligations.FallingEdgeAfterTheFrameEndsTheLocalSelect : Prop :=
  ∀ s : State, s.act = true → s.sckQ = true → s.n = 0 → ∃ t, applyEvent .sckFall s = .next t ∧
    t.sckQ = false ∧ t.sdoQ = none ∧ t.lcs = false ∧
    (s.lcs = true ∧ selects s .group →
      t.latch = setLatchLine s.latch s.lastIndex ∧ t.history = s.history ++ [.latchStrobe s.lastIndex]) ∧
    (¬ (s.lcs = true ∧ selects s .group) → t.latch = s.latch ∧ t.history = s.history) ∧
    t.act = true ∧ t.cfg = s.cfg ∧ t.n = 0 ∧ t.hdr = s.hdr ∧ t.din = s.din ∧ t.sel = s.sel ∧ t.sout = s.sout ∧
    t.regs = s.regs ∧ t.lastIndex = s.lastIndex

/-- R99 and R102, with the spec's own choice D38: a clock edge while chip-select is deasserted, and a falling edge of the ADDR
phase, change only the clock level. -/
def Obligations.IdleClockEdgesChangeOnlyTheClockLevel : Prop :=
  ∀ s : State,
    (s.act = false → s.sckQ = false → ∀ b, applyEvent (.sckRise b) s = .next { s with sckQ := true }) ∧
    (s.act = false → s.sckQ = true → applyEvent .sckFall s = .next { s with sckQ := false }) ∧
    (s.act = true → s.sckQ = true → s.cfg.dataW < s.n → applyEvent .sckFall s = .next { s with sckQ := false })

/-- R106 and R107, with the spec's own choices D1 and D23: the sample interface applies a chip-select change first and then
only takes over the clock level, else it applies a clock change, else it changes nothing. `cs` is the logical level the sample
carries. -/
def Obligations.SamplesApplyOneEdge : Prop :=
  ∀ (s : State) (csPin sck sdi cs : Bool), cs = (csPin == s.cfg.csActiveLevel) →
    (cs ≠ s.act → ∃ t, applyEvent (if cs then .csAssert else .csDeassert) s = .next t ∧
      onClockEdge csPin sck sdi s = .next { t with sckQ := sck }) ∧
    (cs = s.act → sck ≠ s.sckQ → onClockEdge csPin sck sdi s = applyEvent (if sck then .sckRise sdi else .sckFall) s) ∧
    (cs = s.act → sck = s.sckQ → onClockEdge csPin sck sdi s = .next s)

/-! ## Rules over all events -/

/-- R34: a register's committed value changes only on the terminal clock edge of a frame with `we = 1` addressed to it, and
the file keeps one value for each WO and RW Register binding. -/
def Obligations.RegistersChangeOnlyAtTheTerminalEdge : Prop :=
  ∀ (s t : State) (ev : Ev), applyEvent ev s = .next t →
    (∀ e, regGet t.regs e ≠ regGet s.regs e →
      (∃ b, ev = .sckRise b) ∧ s.act = true ∧ s.n = 1 ∧ 0 < s.cfg.dataW ∧ headerWe s.hdr = true ∧ s.sel = some e ∧
      kindOf s.cfg e = some .register ∧ (regKindOf s.cfg e = some .wo ∨ regKindOf s.cfg e = some .rw)) ∧
    (RegFileShape s → RegFileShape t)

/-- R104 (derived there): a `WriteCommit` is recorded exactly by the terminal edge of a frame with `we = 1` and a Register
selection, once, with the value shifted in. -/
def Obligations.WriteCommitIsRecordedExactlyAtTheTerminalEdge : Prop :=
  ∀ (s t : State) (ev : Ev), applyEvent ev s = .next t → ∃ new, t.history = s.history ++ new ∧
    (∀ e v, TxEvent.writeCommit e v ∈ new ↔
      ∃ b, ev = .sckRise b ∧ s.act = true ∧ s.n = 1 ∧ 0 < s.cfg.dataW ∧ headerWe s.hdr = true ∧ s.sel = some e ∧
        kindOf s.cfg e = some .register ∧ v = shiftData s.cfg.dataW s.din b) ∧
    ∀ e v, new.count (.writeCommit e v) ≤ 1

/-- R154 to R157, with the spec's own choices D15 and D16: a latch line rises only at the end of a completed group frame, and
then it is the line of the frame's index; it falls only at a frame's start. -/
def Obligations.LatchLinesRiseOnlyAtTheEndOfAGroupFrame : Prop :=
  ∀ (s t : State) (ev : Ev) (i : Nat), applyEvent ev s = .next t →
    (s.latch.getLsbD i = false → t.latch.getLsbD i = true →
      (ev = .sckFall ∨ ev = .csDeassert) ∧ s.act = true ∧ s.n = 0 ∧ s.lcs = true ∧ selects s .group ∧ i = s.lastIndex.toNat ∧
      t.history = s.history ++ [.latchStrobe s.lastIndex]) ∧
    (s.latch.getLsbD i = true → t.latch.getLsbD i = false →
      t.latch = 0#4 ∧ (ev = .csAssert ∨ (∃ b, ev = .sckRise b) ∧ s.act = true ∧ s.n = 0 ∧ s.cfg.backToBack = true))

/-- R150, with the spec's own choice D17: the index changes only on the read-request edge of a frame to the Group binding, and
then to the address's two low bits. -/
def Obligations.IndexChangesOnlyAtAGroupReadRequest : Prop :=
  ∀ (s t : State) (ev : Ev), applyEvent ev s = .next t → t.lastIndex ≠ s.lastIndex →
    ∃ b, ev = .sckRise b ∧ s.act = true ∧ s.n = s.cfg.dataW + 1 ∧ selects t .group ∧
      t.lastIndex = addrIndex (headerAddr (s.hdr.shiftConcat b))

/-- R28 and R29 (the chain part rests on no decision): the selection and the outgoing chain change only on the read-request
edge, else they are cleared by the frame reset. -/
def Obligations.SelectionAndChainAreFixedForTheFrame : Prop :=
  ∀ (s t : State) (ev : Ev), applyEvent ev s = .next t → (t.sel ≠ s.sel ∨ t.sout ≠ s.sout) →
    (∃ b, ev = .sckRise b ∧ s.act = true ∧ s.n = s.cfg.dataW + 1) ∨ shiftInitial t

/-- R142 (derived there) and R136 to R139, R152, with the spec's own choices D11, D12, D30 and D31: from a sound state, a local
select line changes only on falling edges outside the ADDR phase, on `CS_DEASSERT` and on a restart. It is active for the
selected device from the first falling edge of the DATA phase to the last rising edge; it is inactive for every binding that is
not selected, in the ADDR phase, on the half clock between the match and that falling edge, and from the falling edge after the
frame on. Where it is inactive, the binding selected or not, the clock is at 0, and the data line too if there is no fan-out;
where it is active, they are the engine's clock and data; a fan-out data line carries `sdi` whatever is selected. -/
def Obligations.LocalSelectLinesDoNotGlitch : Prop :=
  ∀ (s t : State) (ev : Ev) (e : Nat), Inv s → applyEvent ev s = .next t →
    (extCs t e ≠ extCs s e → s.act = true ∧ (ev = .sckFall ∧ s.n ≤ s.cfg.dataW ∨ ev = .csDeassert ∨
      (∃ b, ev = .sckRise b) ∧ s.n = 0 ∧ s.cfg.backToBack = true)) ∧
    (s.sel ≠ some e ∨ s.cfg.dataW < s.n ∨ s.n = s.cfg.dataW ∧ s.sckQ = true ∨ s.n = 0 ∧ s.sckQ = false →
      extCs s e = false) ∧
    (s.act = true → s.sel = some e → hasLink s.cfg e = true → 0 < s.n → s.n < s.cfg.dataW ∨ s.n = s.cfg.dataW ∧ s.sckQ = false →
      extCs s e = true) ∧
    (extCs s e = false → extSck s e = false ∧ (fanoutOf s.cfg e = false → ∀ sdi, extSdi s e sdi = false)) ∧
    (extCs s e = true → extSck s e = s.sckQ ∧ ∀ sdi, extSdi s e sdi = sdi) ∧
    (fanoutOf s.cfg e = true → ∀ sdi, extSdi s e sdi = sdi)

/-- R123 (derived there): in a sound state a registered output bit and an active device never drive `sdo` together. -/
def Obligations.SerialOutputHasOneDriver : Prop :=
  ∀ s : State, Inv s → (s.sdoQ.isSome = true → s.lcs = false ∧ selects s .register) ∧
    ∀ e, extCs s e = true → s.sdoQ = none ∧ sdo s = some (extSdoLevel s e)

/-- R24 and R42, with the spec's own choices D3, D21, D22 and D38: a rising edge within an assertion counts one bit until the
counter is 0; an assertion, a deassertion and the idle clock of a back-to-back block apply the frame reset, which reloads the
counter; every other event leaves it. -/
def Obligations.CounterCountsRisingEdges : Prop :=
  ∀ (s t : State) (ev : Ev), applyEvent ev s = .next t →
    (∀ b, ev = .sckRise b → s.act = true → 0 < s.n → t.n + 1 = s.n) ∧
    (ev = .csAssert ∨ ev = .csDeassert ∨
        (∃ b, ev = .sckRise b) ∧ s.act = true ∧ s.n = 0 ∧ s.cfg.backToBack = true → shiftInitial t) ∧
    (ev = .sckFall ∨ (∃ b, ev = .sckRise b) ∧ (s.act = false ∨ s.n = 0 ∧ s.cfg.backToBack = false) → t.n = s.n)

/-- R68: nothing a step does changes the configuration (which stands in State by the model's choice, log entry 3). -/
def Obligations.ConfigurationNeverChanges : Prop :=
  ∀ s t : State, step s = .next t → t.cfg = s.cfg

/-! ## The invariant -/

/-- The state after reset meets the invariant of Safety.lean. State.reset is power-on under CFG-T, the model's choice of
configuration (log entry 4); the next statement is the general form. -/
def Obligations.ResetMeetsTheInvariant : Prop := Inv State.reset

/-- Power-on under any admitted configuration meets the invariant. -/
def Obligations.EveryPowerOnMeetsTheInvariant : Prop :=
  ∀ (c : Config) (s : State), powerOn c = .next s → Inv s

/-- Every step keeps the invariant, whatever the outside does. -/
def Obligations.EveryStepKeepsTheInvariant : Prop :=
  ∀ s t : State, Inv s → step s = .next t → Inv t

/-! ## The transactions -/

/-- R162, for the transactions: in every state every transaction completes and keeps the configuration; from an idle state it is
framed by chip-select (R87) and leaves the engine idle with the shift state frame-initial. Where chip-select is asserted already,
without back-to-back or in the middle of a frame, what a transaction sends is no rule of the spec but the model's choice (log
entry 7), and so is the clause that it leaves the assertion level as it was: its bits stand inside that assertion, with no
CS_ASSERT and no CS_DEASSERT of their own. -/
def Obligations.EveryTransactionCompletes : Prop :=
  ∀ (i : Instr) (s : State), ∃ t, exec i s = .next t ∧ t.cfg = s.cfg ∧ t.act = s.act ∧
    (s.act = false → t.sckQ = false ∧ shiftInitial t)

/-- R131: `REG_RD r` selects REG`r` under the canonical table. A transaction with `we = 0` whose address selects a Register
binding (under a supplied table every row can, R84) returns the binding's read value in the data phase, MSB first. Registers,
index and devices are unchanged and the engine is idle again with the clock low; the latch bus is cleared, as by every frame's
start (R155, the spec's own choice D15). The framing, the records and the free inputs are the model's (log entries 5 to 7). -/
def Obligations.RegisterReadReturnsTheValue : Prop :=
  ∀ (s : State) (i : Instr) (e : Nat), s.act = false → admitted s.cfg = true → i.we = false →
    (∀ hi r d, i = .regRd hi r d → CanonicalTable s.cfg →
      route s.cfg i.addr = some r.toNat ∧ kindOf s.cfg r.toNat = some .register) ∧
    (route s.cfg i.addr = some e → kindOf s.cfg e = some .register →
      exec i s = .next
        { afterFrame s with
          history := s.history ++ [.readRequest i.addr false (some e), .frameComplete i.addr false (fitData s.cfg.dataW i.data)]
          sdoSeen := s.sdoSeen ++ List.replicate 8 none ++
                       (msbFirst s.cfg.dataW (readValueAt s e (s.draws + 7))).map some
          draws := s.draws + s.cfg.frameLen })

/-- R132: `REG_WR r, d` selects REG`r` under the canonical table. A transaction with `we = 1` whose address selects a Register
binding (R84) returns the value the binding read before the frame, and commits the data at the terminal edge to a WO or RW
register; an RO register keeps having no stored value (D36). Every other register is unchanged; the latch bus is cleared by the
frame's start (R155, the spec's own choice D15), and the engine is idle again with the clock low. The framing, the records and
the free inputs are the model's (log entries 5 to 7). -/
def Obligations.RegisterWriteCommitsTheData : Prop :=
  ∀ (s : State) (i : Instr) (v : Data) (e : Nat), s.act = false → admitted s.cfg = true → i.we = true →
    v = fitData s.cfg.dataW i.data →
    (∀ hi r d, i = .regWr hi r d → CanonicalTable s.cfg →
      route s.cfg i.addr = some r.toNat ∧ kindOf s.cfg r.toNat = some .register) ∧
    (route s.cfg i.addr = some e → kindOf s.cfg e = some .register → ∃ t, exec i s = .next t ∧
      t = { afterFrame s with
            regs := t.regs
            history := s.history ++ [.readRequest i.addr true (some e), .frameComplete i.addr true v, .writeCommit e v]
            sdoSeen := s.sdoSeen ++ List.replicate 8 none ++
                         (msbFirst s.cfg.dataW (readValueAt s e (s.draws + 7))).map some
            draws := s.draws + s.cfg.frameLen } ∧
      (regKindOf s.cfg e = some .rw ∨ regKindOf s.cfg e = some .wo →
        regGet t.regs e = v ∧ ∀ e', e' ≠ e → regGet t.regs e' = regGet s.regs e') ∧
      (regKindOf s.cfg e = some .ro → t.regs = s.regs))

/-- R143, R144, R145, with the spec's own choice D14 for `we = 1`: `PLL_XFER c`, `ATT_XFER c` and `MEZ_XFER c` select PLL`c`,
ATT`c` and MEZ`c` under the canonical table. A transaction whose address selects a PassThrough binding (R84), for either value
of `we`: the device's local select rises, the device gets the `N` data bits on `N` forwarded clocks, the local select falls; the
master gets the device's bits; registers and index are unchanged, and the latch bus is cleared by the frame's start
(R155, D15) and no line of it rises. The framing, the records and the free inputs are the model's (log entries 5 to 7). -/
def Obligations.PassThroughTransfersRelayTheData : Prop :=
  ∀ (s : State) (i : Instr) (e : Nat), s.act = false → admitted s.cfg = true →
    (CanonicalTable s.cfg → ∀ (c region : BitVec 2) (names : List String),
      ((∃ hi we d, i = .pllXfer hi c we d) ∧ region = 0b01#2 ∧ names = ["PLL0", "PLL1", "PLL2", "PLL3"] ∨
        (∃ hi we d, i = .attXfer hi c we d) ∧ region = 0b10#2 ∧ names = ["ATT0", "ATT1", "ATT2", "ATT3"] ∨
        (∃ hi we d, i = .mezXfer hi c we d) ∧ s.cfg.addrMap = .mezz ∧ region = 0b11#2 ∧
          names = ["MEZ0", "MEZ1", "MEZ2", "MEZ3"]) →
      route s.cfg i.addr = some (4 * region.toNat + c.toNat) ∧
      kindOf s.cfg (4 * region.toNat + c.toNat) = some .passThrough ∧
      (canonicalNames s.cfg.addrMap)[4 * region.toNat + c.toNat]? = names[c.toNat]?) ∧
    (route s.cfg i.addr = some e → kindOf s.cfg e = some .passThrough →
      exec i s = .next
        { afterFrame s with
          history := s.history ++ [.readRequest i.addr i.we (some e),
                                   .frameComplete i.addr i.we (fitData s.cfg.dataW i.data)]
          sdoSeen := s.sdoSeen ++ List.replicate 8 none ++ deviceBits s e (s.draws + 8) s.cfg.dataW
          draws := s.draws + s.cfg.frameLen
          downstream := s.downstream ++ [.csRise e] ++ (msbFirst s.cfg.dataW i.data).map (.clock e) ++ [.csFall e] })

/-- R160, with the spec's own choices D15, D16 and D31: `GRP_XFER t` selects GRP with index `t` under the canonical table and
`ADDR_MAP = GROUP`. A transaction whose address selects the Group binding (R84), for either value of `we`: the link behaves as a
pass-through, the index becomes `addr[1:0]`, and after the frame exactly that latch line is high, with one strobe recorded. The
second clause does not ask for `ADDR_MAP = GROUP`: that a supplied table's Group binding acts and strobes under MEZZ too, where
R37, R148 and R159 say there is none, is the model's choice (log entry 13, unsafe). The framing, the records and the free inputs
are the model's (log entries 5 to 7). -/
def Obligations.GroupTransferStrobesItsLine : Prop :=
  ∀ (s : State) (i : Instr) (e : Nat), s.act = false → admitted s.cfg = true →
    (∀ hi t we d, i = .grpXfer hi t we d → CanonicalTable s.cfg → s.cfg.addrMap = .group →
      route s.cfg i.addr = some 12 ∧ kindOf s.cfg 12 = some .group ∧ addrIndex i.addr = t) ∧
    (route s.cfg i.addr = some e → kindOf s.cfg e = some .group →
      exec i s = .next
        { afterFrame s with
          lastIndex := addrIndex i.addr
          latch := 1#4 <<< (addrIndex i.addr).toNat
          history := s.history ++ [.readRequest i.addr i.we (some e),
                                   .frameComplete i.addr i.we (fitData s.cfg.dataW i.data),
                                   .latchStrobe (addrIndex i.addr)]
          sdoSeen := s.sdoSeen ++ List.replicate 8 none ++ deviceBits s e (s.draws + 8) s.cfg.dataW
          draws := s.draws + s.cfg.frameLen
          downstream := s.downstream ++ [.csRise e] ++ (msbFirst s.cfg.dataW i.data).map (.clock e) ++ [.csFall e] })

/-- R121, with the spec's own choices D18 and D15: a frame that matches no binding reaches no endpoint: registers, index and
devices are unchanged, and `sdo` is `ANY` throughout. The latch bus is cleared by the frame's start (R155, D15) and the engine
is idle again with the clock low. The framing and the records are the model's (log entries 6 and 7). -/
def Obligations.UnmatchedFrameReachesNoEndpoint : Prop :=
  ∀ (s : State) (i : Instr), s.act = false → admitted s.cfg = true → route s.cfg i.addr = none →
    exec i s = .next
      { afterFrame s with
        history := s.history ++ [.readRequest i.addr i.we none, .frameComplete i.addr i.we (fitData s.cfg.dataW i.data)]
        sdoSeen := s.sdoSeen ++ List.replicate s.cfg.frameLen none
        draws := s.draws + s.cfg.frameLen }

/-- R64: a value written to a read/write register in one transaction is what the next transaction reads back. The two
transactions are any whose addresses select the register (R84): under the canonical table `REG_WR` and `REG_RD` with any alias
of the address, under a supplied table those of every row. The value is the `N` data bits sent, all of the data where it fits
them. The master samples `ANY` on the eight header edges, then the value, MSB first (R75, with the spec's own choice D6). The
framing and the records are the model's (log entries 6 and 7). -/
def Obligations.WrittenValueIsReadBack : Prop :=
  ∀ (s : State) (i j : Instr) (v : Data) (e : Nat),
    s.act = false → admitted s.cfg = true → i.we = true → j.we = false → v = fitData s.cfg.dataW i.data →
    route s.cfg i.addr = some e → route s.cfg j.addr = some e → kindOf s.cfg e = some .register →
    regKindOf s.cfg e = some .rw →
    (dataFits s.cfg i.data = true → v = i.data) ∧
    ∃ t u, exec i s = .next t ∧ exec j t = .next u ∧
      u.sdoSeen = t.sdoSeen ++ List.replicate 8 none ++ (msbFirst s.cfg.dataW v).map some ∧ regGet u.regs e = v

/-- R185 (derived there), with the spec's own choice D22 for the idle clock: in a back-to-back block, the frame after a write
already reads the written value, within the same assertion. The two transactions are any whose addresses select the register
(R84), and the value is the `N` data bits sent. That the idle clock stands at the head of the later frame's burst is the model's
choice (log entry 7), as are the records (log entry 6). -/
def Obligations.BackToBackReadSeesTheWrite : Prop :=
  ∀ (s : State) (i j : Instr) (v : Data) (e : Nat),
    s.act = true → s.sckQ = false → shiftInitial s → s.cfg.backToBack = true → admitted s.cfg = true →
    i.we = true → j.we = false → v = fitData s.cfg.dataW i.data →
    route s.cfg i.addr = some e → route s.cfg j.addr = some e → kindOf s.cfg e = some .register →
    regKindOf s.cfg e = some .rw →
    (dataFits s.cfg i.data = true → v = i.data) ∧
    ∃ t u, exec i s = .next t ∧ exec j t = .next u ∧
      t.act = true ∧ t.n = 0 ∧ regGet t.regs e = v ∧ u.act = true ∧ u.n = 0 ∧ regGet u.regs e = v ∧
      u.sdoSeen = t.sdoSeen ++ List.replicate 9 none ++ (msbFirst s.cfg.dataW v).map some

/-- R85 and R185 (derived there), with the spec's own choice D22 for the idle clock: in a back-to-back block a frame inside
the assertion has the effect a separate frame has, on the registers, the index, the latch lines, the events and the devices,
and the assertion stays. The master samples `ANY` on the idle clock, where there is one, and on the eight header edges, and then
what a separate frame gives it (R75): the read value of a Register binding, the bits of a selected device, or `ANY` where nothing
matches (D18), with free inputs at their own observation instants. That the idle clock stands at the head of the later frame's
burst is the model's choice (log entry 7), as are the records and the free inputs (log entries 5 and 6). -/
def Obligations.FrameInsideAnAssertionHasTheSameEffect : Prop :=
  ∀ (s : State) (i : Instr) (head : Nat), Inv s → s.act = true → s.sckQ = false → s.cfg.backToBack = true →
    admitted s.cfg = true → (s.n = 0 ∧ head = 9 ∨ s.n = s.cfg.frameLen ∧ head = 8) →
    ∃ t u, exec i s = .next t ∧ exec i { frameInit s with act := false } = .next u ∧ t.act = true ∧ t.n = 0 ∧
      t.sckQ = false ∧ t.regs = u.regs ∧ t.lastIndex = u.lastIndex ∧ t.latch = u.latch ∧ t.history = u.history ∧
      t.downstream = u.downstream ∧ t.cfg = s.cfg ∧ t.statusPin = s.statusPin ∧ t.extSdoPin = s.extSdoPin ∧
      t.draws = s.draws + head + s.cfg.dataW ∧ ∃ bits, t.sdoSeen = s.sdoSeen ++ List.replicate head none ++ bits ∧
        (route s.cfg i.addr = none → bits = List.replicate s.cfg.dataW none) ∧
        ∀ e, route s.cfg i.addr = some e →
          (kindOf s.cfg e = some .register →
            bits = (msbFirst s.cfg.dataW (readValueAt s e (s.draws + head - 1))).map some) ∧
          (hasLink s.cfg e = true → bits = deviceBits s e (s.draws + head) s.cfg.dataW)

/-- R58 and R164, with the spec's own choices D15 and D16 for the latch bus: a short frame is dropped: no register changes, the
latch bus takes the clear of the frame's start and no more (R155, R157), no commit and no strobe is recorded, and the engine is
idle again. The framing and the records are the model's (log entries 6 and 7). -/
def Obligations.ShortFrameIsDropped : Prop :=
  ∀ (s : State) (bits : List Bool), s.act = false → admitted s.cfg = true → bits.length < s.cfg.frameLen →
    ∃ t, runBurst bits s = .next t ∧ t.cfg = s.cfg ∧ t.act = false ∧ t.sckQ = false ∧ shiftInitial t ∧ t.regs = s.regs ∧
      t.latch = 0#4 ∧ ∃ new, t.history = s.history ++ new ∧
        (∀ e v, TxEvent.writeCommit e v ∉ new) ∧ (∀ i, TxEvent.latchStrobe i ∉ new) ∧
        (∀ a we d, TxEvent.frameComplete a we d ∉ new) ∧ (bits ≠ [] → TxEvent.frameAborted bits.length ∈ new)

/-- R98, with the spec's own choice D21: without back-to-back, clocks beyond the frame add nothing but unspecified samples. The
framing and the records are the model's (log entries 6 and 7). -/
def Obligations.ExtraClocksChangeNothing : Prop :=
  ∀ (s : State) (bits extra : List Bool), s.act = false → admitted s.cfg = true → s.cfg.backToBack = false →
    bits.length = s.cfg.frameLen →
    ∃ t, runBurst bits s = .next t ∧
      runBurst (bits ++ extra) s = .next { t with
        sdoSeen := t.sdoSeen ++ List.replicate extra.length none, draws := t.draws + extra.length }

/-- R83: under the canonical table the ignored bits have no effect beyond the event history: `addr[6:4]` for every
transaction, `we` for pass-through and group frames, the data of a register read and of a write to an RO register. -/
def Obligations.IgnoredBitsHaveNoEffect : Prop :=
  ∀ (s : State) (i j : Instr) (hi hi' : BitVec 3) (x : BitVec 2) (we we' : Bool) (d d' : Data),
    s.act = false → admitted s.cfg = true → CanonicalTable s.cfg →
    (i = .regRd hi x d ∧ j = .regRd hi' x d' ∨ i = .regWr hi x d ∧ j = .regWr hi' x d ∨
      i = .regWr hi x d ∧ j = .regWr hi' x d' ∧ regKindOf s.cfg x.toNat = some .ro ∨
      i = .pllXfer hi x we d ∧ j = .pllXfer hi' x we' d ∨ i = .attXfer hi x we d ∧ j = .attXfer hi' x we' d ∨
      i = .grpXfer hi x we d ∧ j = .grpXfer hi' x we' d ∨ i = .mezXfer hi x we d ∧ j = .mezXfer hi' x we' d) →
    ∃ t u, exec i s = .next t ∧ exec j s = .next u ∧ { t with history := u.history } = u

/-- R39 and R130, with the spec's own choice D39: each WO or RW register drives its stored value, any other binding drives none,
and the output changes only on the terminal edge of a frame with `we = 1` addressed to the register. -/
def Obligations.RegisterOutputsFollowTheStoredValue : Prop :=
  ∀ (s t : State) (ev : Ev) (e : Nat) (b : Binding), applyEvent ev s = .next t → s.cfg.bindings[e]? = some b →
    (isStored b = true → regQ s e = some (regGet s.regs e)) ∧ (isStored b = false → regQ s e = none) ∧
    (regQ t e ≠ regQ s e →
      (∃ x, ev = .sckRise x) ∧ s.act = true ∧ s.n = 1 ∧ headerWe s.hdr = true ∧ s.sel = some e ∧ isStored b = true)
end

