-- ==== Sys2Proof/Laws/Bits.lean ====
section
/-! SUPPORT. Laws of the bit helpers: wire order, the data shift register, the header shift register. -/

namespace Sys2Proof

@[simp] theorem msbFirst_length {w : Nat} (k : Nat) (v : BitVec w) : (msbFirst k v).length = k := by
  induction k with
  | zero => rfl
  | succ k ih => simp [msbFirst, ih]

@[simp] theorem frameBits_length (N : Nat) (a : Addr) (we : Bool) (d : Data) : (frameBits N a we d).length = 8 + N := by
  simp [frameBits]

@[simp] theorem encode_length (c : Config) (i : Instr) : (encode c i).length = c.frameLen := by
  simp [encode, Config.frameLen]

theorem fitData_toNat {N : Nat} (hN : N ≤ 32) (v : Data) : (fitData N v).toNat = v.toNat % 2 ^ N := by
  have h : 2 ^ N ≤ 2 ^ 32 := Nat.pow_le_pow_right (by decide) hN
  have hp : 0 < 2 ^ N := Nat.two_pow_pos N
  have hm : v.toNat % 2 ^ N < 2 ^ N := Nat.mod_lt _ hp
  simp only [fitData, BitVec.toNat_setWidth]
  exact Nat.mod_eq_of_lt (by omega)

theorem dataFits_iff (c : Config) (v : Data) : dataFits c v = true ↔ v.toNat < 2 ^ c.dataW := by simp [dataFits]

theorem fitData_fits {c : Config} (hN : c.dataW ≤ 32) (v : Data) : dataFits c (fitData c.dataW v) = true := by
  rw [dataFits_iff, fitData_toNat hN]
  exact Nat.mod_lt _ (Nat.two_pow_pos _)

theorem fitData_of_fits {c : Config} (hN : c.dataW ≤ 32) {v : Data} (hv : dataFits c v = true) :
    fitData c.dataW v = v := by
  apply BitVec.eq_of_toNat_eq
  rw [fitData_toNat hN]
  exact Nat.mod_eq_of_lt ((dataFits_iff c v).1 hv)

theorem shiftData_fits {c : Config} (hN : c.dataW ≤ 32) (v : Data) (b : Bool) :
    dataFits c (shiftData c.dataW v b) = true := fitData_fits hN _

theorem shiftConcat_toNat {w : Nat} (v : BitVec w) (b : Bool) :
    (v.shiftConcat b).toNat = (2 * v.toNat + b.toNat) % 2 ^ w := by
  rw [BitVec.toNat_shiftConcat]
  rw [Nat.shiftLeft_eq, pow_one, Nat.mul_comm]

theorem shiftData_toNat {N : Nat} (hN : N ≤ 32) (v : Data) (b : Bool) :
    (shiftData N v b).toNat = (2 * v.toNat + b.toNat) % 2 ^ N := by
  rw [shiftData, fitData_toNat hN, shiftConcat_toNat]
  exact Nat.mod_mod_of_dvd _ (Nat.pow_dvd_pow 2 hN)

theorem mod_two_pow_succ_msb {w : Nat} (v : BitVec w) (k : Nat) :
    v.toNat % 2 ^ (k + 1) = 2 ^ k * (v.getLsbD k).toNat + v.toNat % 2 ^ k := by
  rw [Nat.mod_pow_succ, BitVec.getLsbD, Nat.toNat_testBit]
  omega

/-- Shifting the low `k` bits of `d` into the data register, first bit first, appends them to it. -/
theorem foldl_shiftData_toNat {N : Nat} (hN : N ≤ 32) (d : Data) (k : Nat) (v : Data) (hv : v.toNat < 2 ^ N) :
    ((msbFirst k d).foldl (shiftData N) v).toNat = (v.toNat * 2 ^ k + d.toNat % 2 ^ k) % 2 ^ N := by
  induction k generalizing v with
  | zero => simp [msbFirst, Nat.mod_one, Nat.mod_eq_of_lt hv]
  | succ k ih =>
    have hlt : (shiftData N v (d.getLsbD k)).toNat < 2 ^ N := by
      rw [shiftData_toNat hN]; exact Nat.mod_lt _ (Nat.two_pow_pos _)
    simp only [msbFirst, List.foldl_cons]
    rw [ih _ hlt, shiftData_toNat hN, mod_two_pow_succ_msb d k, Nat.add_mod, Nat.mod_mul_mod, ← Nat.add_mod]
    congr 1
    ring

/-- After `N` data bits the register holds exactly the data (R27). -/
theorem foldl_shiftData_all {N : Nat} (hN : N ≤ 32) (d : Data) :
    (msbFirst N d).foldl (shiftData N) 0#32 = fitData N d := by
  apply BitVec.eq_of_toNat_eq
  rw [foldl_shiftData_toNat hN d N 0#32 (by simp), fitData_toNat hN]
  simp

theorem foldl_shiftConcat_toNat {w : Nat} (h : BitVec w) (k : Nat) (v : BitVec w) :
    ((msbFirst k h).foldl BitVec.shiftConcat v).toNat = (v.toNat * 2 ^ k + h.toNat % 2 ^ k) % 2 ^ w := by
  induction k generalizing v with
  | zero => simp [msbFirst, Nat.mod_one, Nat.mod_eq_of_lt v.isLt]
  | succ k ih =>
    simp only [msbFirst, List.foldl_cons]
    rw [ih, shiftConcat_toNat, mod_two_pow_succ_msb h k, Nat.add_mod, Nat.mod_mul_mod, ← Nat.add_mod]
    congr 1
    ring

/-- After eight header bits the header register holds exactly the header (R72). -/
theorem foldl_shiftConcat_header (h : Header) : (msbFirst 8 h).foldl BitVec.shiftConcat 0#8 = h := by
  apply BitVec.eq_of_toNat_eq
  rw [foldl_shiftConcat_toNat]
  simpa using h.isLt

theorem foldl_ofMsbFirst {w : Nat} (v : BitVec w) (k acc : Nat) :
    (msbFirst k v).foldl (fun acc b => 2 * acc + b.toNat) acc = acc * 2 ^ k + v.toNat % 2 ^ k := by
  induction k generalizing acc with
  | zero => simp [msbFirst, Nat.mod_one]
  | succ k ih =>
    simp only [msbFirst, List.foldl_cons]
    rw [ih, mod_two_pow_succ_msb v k]
    ring

/-- Reading back bits in wire order gives the number they came from. -/
theorem ofMsbFirst_msbFirst {w : Nat} (v : BitVec w) (k : Nat) : ofMsbFirst (msbFirst k v) = v.toNat % 2 ^ k := by
  simp [ofMsbFirst, foldl_ofMsbFirst]

end Sys2Proof
end

