-- ==== Sys2Proof/Laws/RegFile.lean ====
section
/-! SUPPORT. Laws of the register file: reading after writing, and that writing keeps its canonical form. -/

namespace Sys2Proof.Machine

/-- A binding reads as it was last written (R34). -/
@[simp] theorem regGet_regSet_same (regs : List (Nat × Data)) (e : Nat) (v : Data) :
    regGet (regSet regs e v) e = v := by
  induction regs with
  | nil => simp [regSet, regGet]
  | cons p rest ih =>
    obtain ⟨k, w⟩ := p
    simp only [regSet]
    split_ifs with h1 h2
    · simp [regGet]
    · simp [regGet]
    · simp [regGet, Ne.symm h2, ih]

/-- Writing a binding leaves every other binding alone (R34). -/
theorem regGet_regSet_other (regs : List (Nat × Data)) {e e' : Nat} (v : Data) (h : e' ≠ e) :
    regGet (regSet regs e v) e' = regGet regs e' := by
  induction regs with
  | nil => simp [regSet, regGet, h.symm]
  | cons p rest ih =>
    obtain ⟨k, w⟩ := p
    simp only [regSet]
    split_ifs with h1 h2
    · simp [regGet, h.symm]
    · subst h2; simp [regGet, h.symm]
    · simp [regGet, ih]

theorem mem_regSet {regs : List (Nat × Data)} {e : Nat} {v : Data} {p : Nat × Data}
    (h : p ∈ regSet regs e v) : p = (e, v) ∨ p ∈ regs := by
  induction regs with
  | nil => simpa [regSet] using h
  | cons q rest ih =>
    obtain ⟨k, w⟩ := q
    simp only [regSet] at h
    split_ifs at h with h1 h2
    · simpa using h
    · rcases List.mem_cons.1 h with rfl | h
      · exact .inl rfl
      · exact .inr (List.mem_cons_of_mem _ h)
    · rcases List.mem_cons.1 h with rfl | h
      · exact .inr (by simp)
      · rcases ih h with h | h
        · exact .inl h
        · exact .inr (List.mem_cons_of_mem _ h)

theorem keys_regSet_mem {regs : List (Nat × Data)} {e : Nat} (v : Data)
    (k : Nat) : k ∈ (regSet regs e v).map Prod.fst → k = e ∨ k ∈ regs.map Prod.fst := by
  intro h
  obtain ⟨p, hp, rfl⟩ := List.mem_map.1 h
  rcases mem_regSet hp with rfl | hp
  · exact .inl rfl
  · exact .inr (List.mem_map.2 ⟨p, hp, rfl⟩)

/-- Writing keeps the canonical form. -/
theorem regSet_wf {regs : List (Nat × Data)} (e : Nat) (v : Data) (h : regFileWf regs) :
    regFileWf (regSet regs e v) := by
  induction regs with
  | nil => simp [regSet, regFileWf]
  | cons p rest ih =>
    obtain ⟨k, w⟩ := p
    simp only [regFileWf, List.map_cons, List.pairwise_cons] at h
    simp only [regSet]
    split_ifs with h1 h2
    · simp only [regFileWf, List.map_cons, List.pairwise_cons]
      refine ⟨?_, h⟩
      intro a ha
      rcases List.mem_cons.1 ha with rfl | ha
      · exact h1
      · exact Nat.lt_trans h1 (h.1 a ha)
    · subst h2
      simpa [regFileWf] using h
    · simp only [regFileWf, List.map_cons, List.pairwise_cons]
      refine ⟨?_, ih h.2⟩
      intro a ha
      rcases keys_regSet_mem v a ha with rfl | ha
      · exact Nat.lt_of_le_of_ne (Nat.not_lt.1 h1) (Ne.symm h2)
      · exact h.1 a ha

/-- Writing a binding that is listed in a canonical register file keeps the keys. -/
theorem keys_regSet {regs : List (Nat × Data)} {e : Nat} (v : Data) (hwf : regFileWf regs)
    (h : e ∈ regs.map Prod.fst) : (regSet regs e v).map Prod.fst = regs.map Prod.fst := by
  induction regs with
  | nil => simp at h
  | cons p rest ih =>
    obtain ⟨k, w⟩ := p
    simp only [regFileWf, List.map_cons, List.pairwise_cons] at hwf
    simp only [regSet]
    rcases List.mem_cons.1 h with heq | h
    · have heq : e = k := heq
      subst heq
      simp
    · have hk : k < e := hwf.1 e h
      rw [if_neg (Nat.lt_asymm hk), if_neg (Nat.ne_of_gt hk)]
      simp [ih hwf.2 h]

theorem storedFrom_ge {i : Nat} {bs : List Binding} {e : Nat} (h : e ∈ storedFrom i bs) : i ≤ e := by
  induction bs generalizing i with
  | nil => simp [storedFrom] at h
  | cons b bs ih =>
    simp only [storedFrom] at h
    split_ifs at h with hb
    · rcases List.mem_cons.1 h with rfl | h
      · exact Nat.le_refl _
      · have := ih h; omega
    · have := ih h; omega

theorem storedFrom_sorted (i : Nat) (bs : List Binding) : (storedFrom i bs).Pairwise (· < ·) := by
  induction bs generalizing i with
  | nil => simp [storedFrom]
  | cons b bs ih =>
    simp only [storedFrom]
    split_ifs with hb
    · refine List.pairwise_cons.2 ⟨fun e he => ?_, ih _⟩
      exact Nat.lt_of_succ_le (storedFrom_ge he)
    · exact ih _

theorem mem_storedFrom {i e : Nat} {bs : List Binding} {b : Binding} (h : bs[e]? = some b) (hb : isStored b = true) :
    i + e ∈ storedFrom i bs := by
  induction bs generalizing i e with
  | nil => simp at h
  | cons x xs ih =>
    simp only [storedFrom]
    cases e with
    | zero =>
      simp only [List.getElem?_cons_zero, Option.some.injEq] at h
      subst h
      simp [hb]
    | succ e =>
      have := ih (i := i + 1) (e := e) (by simpa using h)
      rw [show i + (e + 1) = i + 1 + e by omega]
      split_ifs
      · exact List.mem_cons_of_mem _ this
      · exact this

/-- The register file of a state with the right shape is in canonical form. -/
theorem regFileWf_of_shape {s : State} (h : RegFileShape s) : regFileWf s.regs := by
  rw [regFileWf, h]
  exact storedFrom_sorted 0 _

theorem initialRegs_keys (N i : Nat) (bs : List Binding) : (initialRegs N i bs).map Prod.fst = storedFrom i bs := by
  induction bs generalizing i with
  | nil => rfl
  | cons b bs ih =>
    simp only [initialRegs, storedFrom]
    split_ifs <;> simp [ih]

/-- The reset register file is in canonical form. -/
theorem reset_regFileWf : regFileWf State.reset.regs := by decide

end Sys2Proof.Machine
end

