-- ==== Sys2Proof/Laws/State.lean ====
section
/-! SUPPORT. What each shared operation does to each field of the state, one lemma per field. -/

namespace Sys2Proof.Machine

@[simp] theorem frameInit_cfg (s : State) : (frameInit s).cfg = s.cfg := rfl
@[simp] theorem frameInit_act (s : State) : (frameInit s).act = s.act := rfl
@[simp] theorem frameInit_sckQ (s : State) : (frameInit s).sckQ = s.sckQ := rfl
@[simp] theorem frameInit_n (s : State) : (frameInit s).n = s.cfg.frameLen := rfl
@[simp] theorem frameInit_hdr (s : State) : (frameInit s).hdr = 0#8 := rfl
@[simp] theorem frameInit_din (s : State) : (frameInit s).din = 0#32 := rfl
@[simp] theorem frameInit_sel (s : State) : (frameInit s).sel = none := rfl
@[simp] theorem frameInit_sout (s : State) : (frameInit s).sout = none := rfl
@[simp] theorem frameInit_sdoQ (s : State) : (frameInit s).sdoQ = none := rfl
@[simp] theorem frameInit_lcs (s : State) : (frameInit s).lcs = false := rfl
@[simp] theorem frameInit_regs (s : State) : (frameInit s).regs = s.regs := rfl
@[simp] theorem frameInit_lastIndex (s : State) : (frameInit s).lastIndex = s.lastIndex := rfl
@[simp] theorem frameInit_latch (s : State) : (frameInit s).latch = s.latch := rfl
@[simp] theorem frameInit_statusPin (s : State) : (frameInit s).statusPin = s.statusPin := rfl
@[simp] theorem frameInit_extSdoPin (s : State) : (frameInit s).extSdoPin = s.extSdoPin := rfl
@[simp] theorem frameInit_draws (s : State) : (frameInit s).draws = s.draws := rfl
@[simp] theorem frameInit_history (s : State) : (frameInit s).history = s.history := rfl
@[simp] theorem frameInit_sdoSeen (s : State) : (frameInit s).sdoSeen = s.sdoSeen := rfl
@[simp] theorem frameInit_sdoOut (s : State) : (frameInit s).sdoOut = s.sdoOut := rfl
@[simp] theorem frameInit_downstream (s : State) : (frameInit s).downstream = s.downstream := rfl
@[simp] theorem frameInit_pending (s : State) : (frameInit s).pending = s.pending := rfl

@[simp] theorem groupLatchClear_cfg (s : State) : (groupLatchClear s).cfg = s.cfg := rfl
@[simp] theorem groupLatchClear_act (s : State) : (groupLatchClear s).act = s.act := rfl
@[simp] theorem groupLatchClear_sckQ (s : State) : (groupLatchClear s).sckQ = s.sckQ := rfl
@[simp] theorem groupLatchClear_n (s : State) : (groupLatchClear s).n = s.n := rfl
@[simp] theorem groupLatchClear_hdr (s : State) : (groupLatchClear s).hdr = s.hdr := rfl
@[simp] theorem groupLatchClear_din (s : State) : (groupLatchClear s).din = s.din := rfl
@[simp] theorem groupLatchClear_sel (s : State) : (groupLatchClear s).sel = s.sel := rfl
@[simp] theorem groupLatchClear_sout (s : State) : (groupLatchClear s).sout = s.sout := rfl
@[simp] theorem groupLatchClear_sdoQ (s : State) : (groupLatchClear s).sdoQ = s.sdoQ := rfl
@[simp] theorem groupLatchClear_lcs (s : State) : (groupLatchClear s).lcs = s.lcs := rfl
@[simp] theorem groupLatchClear_regs (s : State) : (groupLatchClear s).regs = s.regs := rfl
@[simp] theorem groupLatchClear_lastIndex (s : State) : (groupLatchClear s).lastIndex = s.lastIndex := rfl
@[simp] theorem groupLatchClear_latch (s : State) : (groupLatchClear s).latch = 0#4 := rfl
@[simp] theorem groupLatchClear_statusPin (s : State) : (groupLatchClear s).statusPin = s.statusPin := rfl
@[simp] theorem groupLatchClear_extSdoPin (s : State) : (groupLatchClear s).extSdoPin = s.extSdoPin := rfl
@[simp] theorem groupLatchClear_draws (s : State) : (groupLatchClear s).draws = s.draws := rfl
@[simp] theorem groupLatchClear_history (s : State) : (groupLatchClear s).history = s.history := rfl
@[simp] theorem groupLatchClear_sdoSeen (s : State) : (groupLatchClear s).sdoSeen = s.sdoSeen := rfl
@[simp] theorem groupLatchClear_sdoOut (s : State) : (groupLatchClear s).sdoOut = s.sdoOut := rfl
@[simp] theorem groupLatchClear_downstream (s : State) : (groupLatchClear s).downstream = s.downstream := rfl
@[simp] theorem groupLatchClear_pending (s : State) : (groupLatchClear s).pending = s.pending := rfl

@[simp] theorem record_cfg (x : TxEvent) (s : State) : (record x s).cfg = s.cfg := rfl
@[simp] theorem record_act (x : TxEvent) (s : State) : (record x s).act = s.act := rfl
@[simp] theorem record_sckQ (x : TxEvent) (s : State) : (record x s).sckQ = s.sckQ := rfl
@[simp] theorem record_n (x : TxEvent) (s : State) : (record x s).n = s.n := rfl
@[simp] theorem record_hdr (x : TxEvent) (s : State) : (record x s).hdr = s.hdr := rfl
@[simp] theorem record_din (x : TxEvent) (s : State) : (record x s).din = s.din := rfl
@[simp] theorem record_sel (x : TxEvent) (s : State) : (record x s).sel = s.sel := rfl
@[simp] theorem record_sout (x : TxEvent) (s : State) : (record x s).sout = s.sout := rfl
@[simp] theorem record_sdoQ (x : TxEvent) (s : State) : (record x s).sdoQ = s.sdoQ := rfl
@[simp] theorem record_lcs (x : TxEvent) (s : State) : (record x s).lcs = s.lcs := rfl
@[simp] theorem record_regs (x : TxEvent) (s : State) : (record x s).regs = s.regs := rfl
@[simp] theorem record_lastIndex (x : TxEvent) (s : State) : (record x s).lastIndex = s.lastIndex := rfl
@[simp] theorem record_latch (x : TxEvent) (s : State) : (record x s).latch = s.latch := rfl
@[simp] theorem record_statusPin (x : TxEvent) (s : State) : (record x s).statusPin = s.statusPin := rfl
@[simp] theorem record_extSdoPin (x : TxEvent) (s : State) : (record x s).extSdoPin = s.extSdoPin := rfl
@[simp] theorem record_draws (x : TxEvent) (s : State) : (record x s).draws = s.draws := rfl
@[simp] theorem record_history (x : TxEvent) (s : State) : (record x s).history = s.history ++ [x] := rfl
@[simp] theorem record_sdoSeen (x : TxEvent) (s : State) : (record x s).sdoSeen = s.sdoSeen := rfl
@[simp] theorem record_sdoOut (x : TxEvent) (s : State) : (record x s).sdoOut = s.sdoOut := rfl
@[simp] theorem record_downstream (x : TxEvent) (s : State) : (record x s).downstream = s.downstream := rfl
@[simp] theorem record_pending (x : TxEvent) (s : State) : (record x s).pending = s.pending := rfl

@[simp] theorem groupLatchSet_cfg (i : BitVec 2) (s : State) : (groupLatchSet i s).cfg = s.cfg := rfl
@[simp] theorem groupLatchSet_act (i : BitVec 2) (s : State) : (groupLatchSet i s).act = s.act := rfl
@[simp] theorem groupLatchSet_sckQ (i : BitVec 2) (s : State) : (groupLatchSet i s).sckQ = s.sckQ := rfl
@[simp] theorem groupLatchSet_n (i : BitVec 2) (s : State) : (groupLatchSet i s).n = s.n := rfl
@[simp] theorem groupLatchSet_hdr (i : BitVec 2) (s : State) : (groupLatchSet i s).hdr = s.hdr := rfl
@[simp] theorem groupLatchSet_din (i : BitVec 2) (s : State) : (groupLatchSet i s).din = s.din := rfl
@[simp] theorem groupLatchSet_sel (i : BitVec 2) (s : State) : (groupLatchSet i s).sel = s.sel := rfl
@[simp] theorem groupLatchSet_sout (i : BitVec 2) (s : State) : (groupLatchSet i s).sout = s.sout := rfl
@[simp] theorem groupLatchSet_sdoQ (i : BitVec 2) (s : State) : (groupLatchSet i s).sdoQ = s.sdoQ := rfl
@[simp] theorem groupLatchSet_lcs (i : BitVec 2) (s : State) : (groupLatchSet i s).lcs = s.lcs := rfl
@[simp] theorem groupLatchSet_regs (i : BitVec 2) (s : State) : (groupLatchSet i s).regs = s.regs := rfl
@[simp] theorem groupLatchSet_lastIndex (i : BitVec 2) (s : State) : (groupLatchSet i s).lastIndex = s.lastIndex := rfl
@[simp] theorem groupLatchSet_latch (i : BitVec 2) (s : State) : (groupLatchSet i s).latch = setLatchLine s.latch i := rfl
@[simp] theorem groupLatchSet_statusPin (i : BitVec 2) (s : State) : (groupLatchSet i s).statusPin = s.statusPin := rfl
@[simp] theorem groupLatchSet_extSdoPin (i : BitVec 2) (s : State) : (groupLatchSet i s).extSdoPin = s.extSdoPin := rfl
@[simp] theorem groupLatchSet_draws (i : BitVec 2) (s : State) : (groupLatchSet i s).draws = s.draws := rfl
@[simp] theorem groupLatchSet_history (i : BitVec 2) (s : State) : (groupLatchSet i s).history = s.history ++ [.latchStrobe i] := rfl
@[simp] theorem groupLatchSet_sdoSeen (i : BitVec 2) (s : State) : (groupLatchSet i s).sdoSeen = s.sdoSeen := rfl
@[simp] theorem groupLatchSet_sdoOut (i : BitVec 2) (s : State) : (groupLatchSet i s).sdoOut = s.sdoOut := rfl
@[simp] theorem groupLatchSet_downstream (i : BitVec 2) (s : State) : (groupLatchSet i s).downstream = s.downstream := rfl
@[simp] theorem groupLatchSet_pending (i : BitVec 2) (s : State) : (groupLatchSet i s).pending = s.pending := rfl

@[simp] theorem regCommit_cfg (e : Nat) (v : Data) (s : State) : (regCommit e v s).cfg = s.cfg := rfl
@[simp] theorem regCommit_act (e : Nat) (v : Data) (s : State) : (regCommit e v s).act = s.act := rfl
@[simp] theorem regCommit_sckQ (e : Nat) (v : Data) (s : State) : (regCommit e v s).sckQ = s.sckQ := rfl
@[simp] theorem regCommit_n (e : Nat) (v : Data) (s : State) : (regCommit e v s).n = s.n := rfl
@[simp] theorem regCommit_hdr (e : Nat) (v : Data) (s : State) : (regCommit e v s).hdr = s.hdr := rfl
@[simp] theorem regCommit_din (e : Nat) (v : Data) (s : State) : (regCommit e v s).din = s.din := rfl
@[simp] theorem regCommit_sel (e : Nat) (v : Data) (s : State) : (regCommit e v s).sel = s.sel := rfl
@[simp] theorem regCommit_sout (e : Nat) (v : Data) (s : State) : (regCommit e v s).sout = s.sout := rfl
@[simp] theorem regCommit_sdoQ (e : Nat) (v : Data) (s : State) : (regCommit e v s).sdoQ = s.sdoQ := rfl
@[simp] theorem regCommit_lcs (e : Nat) (v : Data) (s : State) : (regCommit e v s).lcs = s.lcs := rfl
@[simp] theorem regCommit_regs (e : Nat) (v : Data) (s : State) : (regCommit e v s).regs = committedRegs s.cfg s.regs e v := rfl
@[simp] theorem regCommit_lastIndex (e : Nat) (v : Data) (s : State) : (regCommit e v s).lastIndex = s.lastIndex := rfl
@[simp] theorem regCommit_latch (e : Nat) (v : Data) (s : State) : (regCommit e v s).latch = s.latch := rfl
@[simp] theorem regCommit_statusPin (e : Nat) (v : Data) (s : State) : (regCommit e v s).statusPin = s.statusPin := rfl
@[simp] theorem regCommit_extSdoPin (e : Nat) (v : Data) (s : State) : (regCommit e v s).extSdoPin = s.extSdoPin := rfl
@[simp] theorem regCommit_draws (e : Nat) (v : Data) (s : State) : (regCommit e v s).draws = s.draws := rfl
@[simp] theorem regCommit_history (e : Nat) (v : Data) (s : State) : (regCommit e v s).history = s.history ++ [.writeCommit e v] := rfl
@[simp] theorem regCommit_sdoSeen (e : Nat) (v : Data) (s : State) : (regCommit e v s).sdoSeen = s.sdoSeen := rfl
@[simp] theorem regCommit_sdoOut (e : Nat) (v : Data) (s : State) : (regCommit e v s).sdoOut = s.sdoOut := rfl
@[simp] theorem regCommit_downstream (e : Nat) (v : Data) (s : State) : (regCommit e v s).downstream = s.downstream := rfl
@[simp] theorem regCommit_pending (e : Nat) (v : Data) (s : State) : (regCommit e v s).pending = s.pending := rfl

@[simp] theorem readRequest_cfg (h : Header) (s : State) : (readRequest h s).cfg = s.cfg := rfl
@[simp] theorem readRequest_act (h : Header) (s : State) : (readRequest h s).act = s.act := rfl
@[simp] theorem readRequest_sckQ (h : Header) (s : State) : (readRequest h s).sckQ = s.sckQ := rfl
@[simp] theorem readRequest_n (h : Header) (s : State) : (readRequest h s).n = s.n := rfl
@[simp] theorem readRequest_hdr (h : Header) (s : State) : (readRequest h s).hdr = s.hdr := rfl
@[simp] theorem readRequest_din (h : Header) (s : State) : (readRequest h s).din = s.din := rfl
@[simp] theorem readRequest_sel (h : Header) (s : State) : (readRequest h s).sel = route s.cfg (headerAddr h) := rfl
@[simp] theorem readRequest_sout (h : Header) (s : State) : (readRequest h s).sout = loadedSout s (route s.cfg (headerAddr h)) := rfl
@[simp] theorem readRequest_sdoQ (h : Header) (s : State) : (readRequest h s).sdoQ = s.sdoQ := rfl
@[simp] theorem readRequest_lcs (h : Header) (s : State) : (readRequest h s).lcs = s.lcs := rfl
@[simp] theorem readRequest_regs (h : Header) (s : State) : (readRequest h s).regs = s.regs := rfl
@[simp] theorem readRequest_lastIndex (h : Header) (s : State) : (readRequest h s).lastIndex = loadedIndex s.cfg s.lastIndex (headerAddr h) (route s.cfg (headerAddr h)) := rfl
@[simp] theorem readRequest_latch (h : Header) (s : State) : (readRequest h s).latch = s.latch := rfl
@[simp] theorem readRequest_statusPin (h : Header) (s : State) : (readRequest h s).statusPin = s.statusPin := rfl
@[simp] theorem readRequest_extSdoPin (h : Header) (s : State) : (readRequest h s).extSdoPin = s.extSdoPin := rfl
@[simp] theorem readRequest_draws (h : Header) (s : State) : (readRequest h s).draws = s.draws := rfl
@[simp] theorem readRequest_history (h : Header) (s : State) : (readRequest h s).history = s.history ++ [.readRequest (headerAddr h) (headerWe h) (route s.cfg (headerAddr h))] := rfl
@[simp] theorem readRequest_sdoSeen (h : Header) (s : State) : (readRequest h s).sdoSeen = s.sdoSeen := rfl
@[simp] theorem readRequest_sdoOut (h : Header) (s : State) : (readRequest h s).sdoOut = s.sdoOut := rfl
@[simp] theorem readRequest_downstream (h : Header) (s : State) : (readRequest h s).downstream = s.downstream := rfl
@[simp] theorem readRequest_pending (h : Header) (s : State) : (readRequest h s).pending = s.pending := rfl

end Sys2Proof.Machine
end

