-- ==== Sys2Proof/Laws/Events.lean ====
section
/-! SUPPORT. What one bus event can do (an event answers a next state exactly when it is legal), and the runs of events. -/

namespace Sys2Proof.Machine

/-- An event answers a next state exactly when it is legal, and the next state is its observed effect. -/
theorem applyEvent_next_iff {ev : Ev} {s t : State} :
    applyEvent ev s = .next t ↔ legal s ev = true ∧ observe s (effect s ev) ev = t := by
  unfold applyEvent
  split <;> simp_all

/-- A legal event answers a next state. -/
theorem applyEvent_of_legal {ev : Ev} {s : State} (h : legal s ev = true) :
    applyEvent ev s = .next (observe s (effect s ev) ev) := by simp [applyEvent, h]

@[simp] theorem runEvents_nil (s : State) : runEvents [] s = .next s := rfl

theorem runEvents_cons_of_legal {ev : Ev} {s : State} (evs : List Ev) (h : legal s ev = true) :
    runEvents (ev :: evs) s = runEvents evs (observe s (effect s ev) ev) := by
  simp [runEvents, applyEvent_of_legal h]

/-- A run of events in two parts. -/
theorem runEvents_append (xs ys : List Ev) (s : State) :
    runEvents (xs ++ ys) s =
      match runEvents xs s with
      | .next t    => runEvents ys t
      | .fault r   => .fault r
      | .refused r => .refused r := by
  induction xs generalizing s with
  | nil => rfl
  | cons x xs ih =>
    simp only [List.cons_append, runEvents]
    cases applyEvent x s <;> simp [ih]

theorem runEvents_append_of_next {xs : List Ev} {s t : State} (ys : List Ev) (h : runEvents xs s = .next t) :
    runEvents (xs ++ ys) s = runEvents ys t := by rw [runEvents_append, h]

@[simp] theorem clocks_nil : clocks [] = [] := rfl

@[simp] theorem clocks_append (xs ys : List Bool) : clocks (xs ++ ys) = clocks xs ++ clocks ys := by
  induction xs with
  | nil => rfl
  | cons x xs ih => simp [clocks, ih]

theorem kindOf_ne_of_hasLink {c : Config} {e : Nat} (h : hasLink c e = true) : kindOf c e ≠ some .register := by
  intro hk; simp [hasLink, hk] at h

theorem hasLink_of_group {c : Config} {e : Nat} (h : kindOf c e = some .group) : hasLink c e = true := by
  simp [hasLink, h]

theorem hasLink_of_passThrough {c : Config} {e : Nat} (h : kindOf c e = some .passThrough) :
    hasLink c e = true := by simp [hasLink, h]

theorem not_hasLink_of_register {c : Config} {e : Nat} (h : kindOf c e = some .register) :
    hasLink c e = false := by simp [hasLink, h]

end Sys2Proof.Machine
end

