-- ==== Sys2Proof/Laws/Ops.lean ====
section
/-! SUPPORT. Laws of the shared operations: what selects a device, what a register reads, what a pinned level reads. -/

namespace Sys2Proof.Machine

/-- An admitted configuration has a data width in 1..32 (R6, R115). -/
theorem admitted_width {c : Config} (h : admitted c = true) : 1 ≤ c.dataW ∧ c.dataW ≤ 32 := by
  simp only [admitted, configError, Option.isNone_iff_eq_none, Option.orElse_eq_none] at h
  by_contra hc
  simp [checkDataWidth, hc] at h

/-- An admitted configuration has no error (R115). -/
theorem configError_of_admitted {c : Config} (h : admitted c = true) : configError c = none := by
  simpa [admitted] using h

theorem groupActive_iff (s : State) : groupActive s = true ↔ s.lcs = true ∧ selects s .group := by
  unfold groupActive selects
  cases s.sel <;> simp

theorem selectsDevice_iff (s : State) : selectsDevice s ↔ selects s .passThrough ∨ selects s .group := by
  unfold selectsDevice selects
  cases s.sel with
  | none => simp
  | some e => cases hk : kindOf s.cfg e with
    | none => simp [hasLink, hk]
    | some k => cases k <;> simp [hasLink, hk]

theorem selectsLink_iff (s : State) : selectsLink s = true ↔ s.n = s.cfg.dataW ∧ selectsDevice s := by
  unfold selectsLink selectsDevice
  cases s.sel <;> simp

/-- What a read-request loads is the read value at this observation instant (R96, R127). -/
theorem regRead_eq (s : State) (e : Nat) : regRead s e = readValueAt s e s.draws := by
  unfold regRead readValueAt statusLevel
  split <;> simp_all

theorem lookup_filter_ne {α : Type} (l : List (Nat × α)) {e e' : Nat} (h : e' ≠ e) :
    (l.filter fun p => p.1 != e).lookup e' = l.lookup e' := by
  induction l with
  | nil => rfl
  | cons p l ih =>
    obtain ⟨k, v⟩ := p
    by_cases hk : k = e
    · subst hk
      have h2 : (e' == k) = false := by simpa using h
      simp [List.lookup_cons, ih, h2]
    · simp only [List.filter_cons, bne_iff_ne, ne_eq, hk, not_false_eq_true, if_true, List.lookup_cons, ih]

theorem lookup_filter_self {α : Type} (l : List (Nat × α)) (e : Nat) :
    (l.filter fun p => p.1 != e).lookup e = none := by
  induction l with
  | nil => rfl
  | cons p l ih =>
    obtain ⟨k, v⟩ := p
    by_cases hk : k = e
    · subst hk; simp [ih]
    · have h2 : (e == k) = false := by simpa using Ne.symm hk
      simp [hk, List.lookup_cons, ih, h2]

/-- A driven environment input reads as it was driven (R38). -/
theorem pin_lookup_same {α : Type} (pins : List (Nat × α)) (e : Nat) (v : Option α) :
    (pin pins e v).lookup e = v := by
  cases v <;> simp [pin, lookup_filter_self]

/-- Driving one environment input leaves the others alone (R38). -/
theorem pin_lookup_other {α : Type} (pins : List (Nat × α)) {e e' : Nat} (v : Option α) (h : e' ≠ e) :
    (pin pins e v).lookup e' = pins.lookup e' := by
  have h2 : (e' == e) = false := by simpa using h
  cases v <;> simp [pin, lookup_filter_ne _ h, h2, List.lookup_cons]

end Sys2Proof.Machine
end

