-- ==== Sys2Proof/Laws/Cases.lean ====
section
/-! SUPPORT. Everything one bus event can do, in twelve cases; the records `sdoSeen`, `downstream` and the counter `draws` are
left as they come out. Proofs over all events cite this and unfold no event rule. -/

namespace Sys2Proof.Machine

/-- What a terminal edge does (R97): the registers and the commit it records. -/
def commitEffect (s : State) (d : Data) : List (Nat × Data) × List TxEvent :=
  match s.sel with
  | some e =>
    if headerWe s.hdr && decide (kindOf s.cfg e = some .register) then
      (committedRegs s.cfg s.regs e d, [.writeCommit e d])
    else (s.regs, [])
  | none => (s.regs, [])

/-- What the terminal edge does, by its two outcomes (R97). -/
theorem commitEffect_cases (s : State) (d : Data) :
    (∃ e, s.sel = some e ∧ headerWe s.hdr = true ∧ kindOf s.cfg e = some .register ∧
      commitEffect s d = (committedRegs s.cfg s.regs e d, [.writeCommit e d])) ∨
    (commitEffect s d = (s.regs, []) ∧
      ∀ e, s.sel = some e → headerWe s.hdr = true → kindOf s.cfg e ≠ some .register) := by
  unfold commitEffect
  cases hs : s.sel with
  | none => simp
  | some e =>
    by_cases h : headerWe s.hdr = true ∧ kindOf s.cfg e = some .register
    · exact .inl ⟨e, rfl, h.1, h.2, by simp [h.1, h.2]⟩
    · refine .inr ⟨?_, ?_⟩
      · simp only [Bool.and_eq_true, decide_eq_true_eq, h, if_false]
      · intro e' he hw hk
        cases he
        exact h ⟨hw, hk⟩

/-- A commit leaves every other register alone (R128). -/
theorem regGet_committedRegs_other (c : Config) (regs : List (Nat × Data)) {e e' : Nat} (d : Data)
    (h : e' ≠ e) : regGet (committedRegs c regs e d) e' = regGet regs e' := by
  unfold committedRegs
  split <;> simp [regGet_regSet_other _ _ h]

theorem isStored_of_kind {c : Config} {e : Nat} (hk : kindOf c e = some .register)
    (hr : regKindOf c e = some .wo ∨ regKindOf c e = some .rw) : ∃ b, c.bindings[e]? = some b ∧ isStored b = true := by
  unfold kindOf at hk
  unfold regKindOf at hr
  cases hb : c.bindings[e]? with
  | none => simp [hb] at hk
  | some b =>
    simp only [hb, Option.map_some, Option.some.injEq, Option.bind_some] at hk hr
    exact ⟨b, rfl, by rcases hr with hr | hr <;> simp [isStored, hk, hr]⟩

/-- A commit keeps the keys of the register file (R34). -/
theorem committedRegs_keys {s : State} {e : Nat} (d : Data) (hk : kindOf s.cfg e = some .register)
    (h : RegFileShape s) : (committedRegs s.cfg s.regs e d).map Prod.fst = storedFrom 0 s.cfg.bindings := by
  have key (hr : regKindOf s.cfg e = some .wo ∨ regKindOf s.cfg e = some .rw) :
      (regSet s.regs e d).map Prod.fst = storedFrom 0 s.cfg.bindings := by
    obtain ⟨b, hb, hi⟩ := isStored_of_kind hk hr
    rw [keys_regSet d (regFileWf_of_shape h), h]
    rw [h]
    simpa using mem_storedFrom (i := 0) hb hi
  unfold committedRegs
  split
  · exact key (.inr ‹_›)
  · exact key (.inl ‹_›)
  · exact h
  · exact h

/-- The latch bus after a strobe, line by line (R154). -/
theorem setLatchLine_bit (l : BitVec 4) (x : BitVec 2) (i : Nat) :
    (setLatchLine l x).getLsbD i = (l.getLsbD i || decide (i = x.toNat)) := by
  have hx : ∀ (x : BitVec 2) (k : Fin 4), (1#4 <<< x.toNat).getLsbD k = decide (k.val = x.toNat) := by decide
  by_cases h : i < 4
  · have := hx x ⟨i, h⟩
    simp only at this
    rw [setLatchLine, BitVec.getLsbD_or, this]
  · have h1 : x.toNat < 4 := x.isLt
    have h2 : i ≠ x.toNat := by omega
    simp [setLatchLine, BitVec.getLsbD_of_ge _ _ (Nat.not_lt.1 h), h2]

/-- The twelve things an event can do (R93 to R102). -/
inductive EventCase (s : State) : Ev → State → Prop
  | assert {dn : List LineEvent} : s.act = false →
      EventCase s .csAssert
        { frameInit s with act := true, latch := 0#4, downstream := dn }
  | deassert {dn : List LineEvent} : s.act = true →
      EventCase s .csDeassert
        { frameInit s with
          act := false
          latch := if s.n = 0 ∧ groupActive s = true then setLatchLine s.latch s.lastIndex else s.latch
          history := s.history ++ (if s.n = 0 ∧ groupActive s = true then [.latchStrobe s.lastIndex] else []) ++
            (if 0 < s.n ∧ s.n < s.cfg.frameLen then [.frameAborted (s.cfg.frameLen - s.n)] else [])
          downstream := dn }
  | riseIdle {b : Bool} : s.act = false → s.sckQ = false →
      EventCase s (.sckRise b)
        { s with sckQ := true }
  | riseAddr {dn : List LineEvent} {seen : List (Option Bool)} {b : Bool} : s.act = true → s.sckQ = false → s.cfg.dataW + 1 < s.n →
      EventCase s (.sckRise b)
        { s with
          sckQ := true
          hdr := s.hdr.shiftConcat b
          n := s.n - 1
          downstream := dn
          sdoSeen := seen
          draws := s.draws + 1 }
  | riseRequest {dn : List LineEvent} {seen : List (Option Bool)} {b : Bool} {h : Header} : s.act = true → s.sckQ = false → s.n = s.cfg.dataW + 1 →
      s.hdr.shiftConcat b = h →
      EventCase s (.sckRise b)
        { s with
          sckQ := true
          hdr := h
          n := s.cfg.dataW
          sel := route s.cfg (headerAddr h)
          sout := loadedSout s (route s.cfg (headerAddr h))
          lastIndex := loadedIndex s.cfg s.lastIndex (headerAddr h) (route s.cfg (headerAddr h))
          history := s.history ++ [.readRequest (headerAddr h) (headerWe h) (route s.cfg (headerAddr h))]
          downstream := dn
          sdoSeen := seen
          draws := s.draws + 1 }
  | riseData {dn : List LineEvent} {seen : List (Option Bool)} {b : Bool} : s.act = true → s.sckQ = false → 1 < s.n → s.n ≤ s.cfg.dataW →
      EventCase s (.sckRise b)
        { s with
          sckQ := true
          din := shiftData s.cfg.dataW s.din b
          n := s.n - 1
          downstream := dn
          sdoSeen := seen
          draws := s.draws + 1 }
  | riseTerminal {dn : List LineEvent} {seen : List (Option Bool)} {b : Bool} {d : Data} : s.act = true → s.sckQ = false → s.n = 1 → 1 ≤ s.cfg.dataW →
      shiftData s.cfg.dataW s.din b = d →
      EventCase s (.sckRise b)
        { s with
          sckQ := true
          din := d
          n := 0
          regs := (commitEffect s d).1
          history := s.history ++ [.frameComplete (headerAddr s.hdr) (headerWe s.hdr) d] ++ (commitEffect s d).2
          downstream := dn
          sdoSeen := seen
          draws := s.draws + 1 }
  | riseRestart {dn : List LineEvent} {seen : List (Option Bool)} {b : Bool} : s.act = true → s.sckQ = false → s.n = 0 → s.cfg.backToBack = true →
      EventCase s (.sckRise b)
        { frameInit s with
          sckQ := true
          latch := 0#4
          downstream := dn
          sdoSeen := seen
          draws := s.draws + 1 }
  | riseExtra {dn : List LineEvent} {seen : List (Option Bool)} {b : Bool} : s.act = true → s.sckQ = false → s.n = 0 → s.cfg.backToBack = false →
      EventCase s (.sckRise b)
        { s with
          sckQ := true
          downstream := dn
          sdoSeen := seen
          draws := s.draws + 1 }
  | fallQuiet : s.sckQ = true → s.act = false ∨ s.act = true ∧ s.cfg.dataW < s.n →
      EventCase s .sckFall
        { s with sckQ := false }
  | fallData {dn : List LineEvent} : s.act = true → s.sckQ = true → 0 < s.n → s.n ≤ s.cfg.dataW →
      EventCase s .sckFall
        { s with
          sckQ := false
          sdoQ := s.sout.map fun v => v.getLsbD (s.n - 1)
          lcs := s.lcs || selectsLink s
          downstream := dn }
  | fallDone {dn : List LineEvent} : s.act = true → s.sckQ = true → s.n = 0 →
      EventCase s .sckFall
        { s with
          sckQ := false
          sdoQ := none
          lcs := false
          latch := if groupActive s = true then setLatchLine s.latch s.lastIndex else s.latch
          history := s.history ++ (if groupActive s = true then [.latchStrobe s.lastIndex] else [])
          downstream := dn }

theorem EventCase.of_eq {s t t' : State} {ev : Ev} (h : EventCase s ev t') (ht : t = t') : EventCase s ev t := ht ▸ h

/-- Every event that answers a next state is one of the cases. -/
theorem applyEvent_cases {ev : Ev} {s t : State} (h : applyEvent ev s = .next t) : EventCase s ev t := by
  obtain ⟨hl, ht⟩ := applyEvent_next_iff.1 h
  cases ev with
  | csAssert =>
    have ha : s.act = false := by simpa [legal] using hl
    refine .of_eq (.assert (dn := t.downstream) ha) ?_
    subst ht
    simp [observe, effect, csAssert, groupLatchClear, frameInit]
  | csDeassert =>
    have ha : s.act = true := by simpa [legal] using hl
    refine .of_eq (.deassert (dn := t.downstream) ha) ?_
    subst ht
    by_cases h1 : s.n = 0 ∧ groupActive s = true
    · simp [observe, effect, csDeassert, deassertStrobe, recordAbort, h1.1, h1.2, groupLatchSet, record, frameInit]
    · have h2 : (decide (s.n = 0) && groupActive s) = false := by
        cases hd : groupActive s <;> simp_all
      by_cases h3 : 0 < s.n ∧ s.n < s.cfg.frameLen
      · simp [observe, effect, csDeassert, deassertStrobe, recordAbort, h1, h2, h3, record, frameInit]
      · simp [observe, effect, csDeassert, deassertStrobe, recordAbort, h1, h2, h3, frameInit]
  | sckRise b =>
    have hs : s.sckQ = false := by simpa [legal] using hl
    cases ha : s.act with
    | false =>
      refine .of_eq (.riseIdle ha hs) ?_
      subst ht
      simp [observe, effect, sckRise, ha, selectChanges, clockRises, activeLink]
    | true =>
      by_cases h1 : s.cfg.dataW < s.n
      · by_cases h2 : s.n = s.cfg.dataW + 1
        · refine .of_eq (.riseRequest (dn := t.downstream) (seen := t.sdoSeen) ha hs h2 rfl) ?_
          subst ht
          simp [observe, effect, sckRise, phase, sckRiseAddr, readRequest, record, ha, h2]
          rfl
        · have h3 : s.n - 1 ≠ s.cfg.dataW := by omega
          refine .of_eq (.riseAddr (dn := t.downstream) (seen := t.sdoSeen) ha hs (by omega)) ?_
          subst ht
          simp [observe, effect, sckRise, phase, sckRiseAddr, ha, h1, h3]
      · by_cases h2 : s.n = 0
        · cases hb : s.cfg.backToBack with
          | true =>
            refine .of_eq (.riseRestart (dn := t.downstream) (seen := t.sdoSeen) ha hs h2 hb) ?_
            subst ht
            simp [observe, effect, sckRise, phase, sckRiseDone, ha, h2, hb, groupLatchClear, frameInit]
          | false =>
            refine .of_eq (.riseExtra (dn := t.downstream) (seen := t.sdoSeen) ha hs h2 hb) ?_
            subst ht
            simp [observe, effect, sckRise, phase, sckRiseDone, ha, h2, hb]
        · by_cases h3 : s.n = 1
          · refine .of_eq (.riseTerminal (dn := t.downstream) (seen := t.sdoSeen) ha hs h3 (by omega) rfl) ?_
            subst ht
            rw [h3] at h1
            simp only [observe, effect, sckRise, phase, sckRiseData, terminalCommit, commitEffect, ha, h1, h3]
            cases hsel : s.sel with
            | none => simp [record]
            | some e =>
              by_cases hk : kindOf s.cfg e = some .register
              · cases hw : headerWe s.hdr <;> simp [hk, hw, record, regCommit]
              · simp [hk, record]
          · have h4 : s.n - 1 ≠ 0 := by omega
            have h5 : 0 < s.n := by omega
            refine .of_eq (.riseData (dn := t.downstream) (seen := t.sdoSeen) ha hs (by omega) (by omega)) ?_
            subst ht
            simp [observe, effect, sckRise, phase, sckRiseData, ha, h1, h4, h5]
  | sckFall =>
    have hs : s.sckQ = true := by simpa [legal] using hl
    cases ha : s.act with
    | false =>
      refine .of_eq (.fallQuiet hs (.inl ha)) ?_
      subst ht
      simp [observe, effect, sckFall, ha, selectChanges, activeLink]
    | true =>
      by_cases h1 : s.cfg.dataW < s.n
      · refine .of_eq (.fallQuiet hs (.inr ⟨ha, h1⟩)) ?_
        subst ht
        simp [observe, effect, sckFall, ha, phase, h1, selectChanges, activeLink]
      · by_cases h2 : s.n = 0
        · refine .of_eq (.fallDone (dn := t.downstream) ha hs h2) ?_
          subst ht
          cases hg : groupActive s <;>
            simp [observe, effect, sckFall, ha, phase, h2, sckFallDone, hg, groupLatchSet, record]
        · have h3 : 0 < s.n := by omega
          refine .of_eq (.fallData (dn := t.downstream) ha hs h3 (by omega)) ?_
          subst ht
          simp [observe, effect, sckFall, ha, phase, h1, h3, sckFallData, nextSdoQ]

end Sys2Proof.Machine
end

