-- ==== Sys2Proof/Laws/Frame.lean ====
section
/-! SUPPORT. What the clocks of a frame do, phase by phase, and what a whole frame does. -/

namespace Sys2Proof.Machine

/-- What the local select becomes at the first falling edge of the DATA phase, for a selection `m` (R136). -/
def linkOf (c : Config) (m : Option Nat) : Bool := m.any (hasLink c)

/-- The select line that rises there (R140). -/
def linkRise (c : Config) (m : Option Nat) : List LineEvent :=
  match m with
  | some e => if hasLink c e then [.csRise e] else []
  | none   => []

/-- The forwarded clock of one data bit (R140). -/
def linkClock (c : Config) (m : Option Nat) (b : Bool) : List LineEvent :=
  match m with
  | some e => if hasLink c e then [.clock e b] else []
  | none   => []

/-- The select line that falls at the first falling edge of the DONE phase (R140). -/
def linkFall (c : Config) (m : Option Nat) : List LineEvent :=
  match m with
  | some e => if hasLink c e then [.csFall e] else []
  | none   => []

/-- What the master samples on a rising edge of the DATA phase that leaves `k` bits to be sampled, at observation instant
`i` (R75): the device's output while a device is selected, else the bit `k` of the chain `v`. -/
def seenAt (c : Config) (pins : List (Nat × Bool)) (m : Option Nat) (v : Option Data) (k i : Nat) :
    Option Bool :=
  match m with
  | some e =>
    if hasLink c e then some ((pins.lookup e).getD (Config.freeExtSdo e i)) else v.map fun x => x.getLsbD k
  | none => v.map fun x => x.getLsbD k

/-- What the master samples on `count` rising edges of the DATA phase, with `n` bits to be sampled before the first, from
observation instant `i` on (R75). -/
def seenBits (c : Config) (pins : List (Nat × Bool)) (m : Option Nat) (v : Option Data) :
    Nat → Nat → Nat → List (Option Bool)
  | _, _, 0         => []
  | n, i, count + 1 => seenAt c pins m v (n - 1) i :: seenBits c pins m v (n - 1) (i + 1) count

/-- The register file after the terminal edge (R97, R128). -/
def endRegs (c : Config) (regs : List (Nat × Data)) (m : Option Nat) (we : Bool) (d : Data) :
    List (Nat × Data) :=
  match m with
  | some e => if we && decide (kindOf c e = some .register) then committedRegs c regs e d else regs
  | none   => regs

/-- The commit the terminal edge records (R91, R128). -/
def endCommit (c : Config) (m : Option Nat) (we : Bool) (d : Data) : List TxEvent :=
  match m with
  | some e => if we && decide (kindOf c e = some .register) then [.writeCommit e d] else []
  | none   => []

/-- Is the selection the Group binding? -/
def groupSelected (c : Config) (m : Option Nat) : Bool := m.any fun e => decide (kindOf c e = some .group)

/-- The latch bus after the frame (R154). -/
def endLatch (c : Config) (m : Option Nat) (l : BitVec 4) (i : BitVec 2) : BitVec 4 :=
  if groupSelected c m then setLatchLine l i else l

/-- The strobe the end of the frame records (R154). -/
def endStrobe (c : Config) (m : Option Nat) (i : BitVec 2) : List TxEvent :=
  if groupSelected c m then [.latchStrobe i] else []

/-- One clock of the ADDR phase before the read-request (R95, R99). -/
theorem runEvents_addrClock {s : State} (b : Bool) (evs : List Ev) (hact : s.act = true) (hsck : s.sckQ = false)
    (hlcs : s.lcs = false) (hq : s.sdoQ = none) (hn : s.cfg.dataW + 1 < s.n) :
    runEvents (.sckRise b :: .sckFall :: evs) s =
      runEvents evs { s with hdr := s.hdr.shiftConcat b, n := s.n - 1, sdoSeen := s.sdoSeen ++ [none],
                             draws := s.draws + 1 } := by
  have h1 : s.cfg.dataW < s.n := by omega
  have h2 : s.cfg.dataW < s.n - 1 := by omega
  have h3 : s.n - 1 ≠ s.cfg.dataW := by omega
  have hs : sdo s = none := by simp only [sdo, muxOut, hlcs, hq]; cases s.sel <;> simp
  simp [runEvents, applyEvent, legal, effect, observe, sckRise, sckFall, phase, sckRiseAddr, hact, hsck, h1, h2, h3,
    selectChanges, clockRises, activeLink, hlcs, hs]

/-- The ADDR phase up to the edge before the read-request (R95, R99). -/
theorem runEvents_addrClocks (bits : List Bool) (evs : List Ev) {s : State} (hact : s.act = true) (hsck : s.sckQ = false)
    (hlcs : s.lcs = false) (hq : s.sdoQ = none) (hn : s.cfg.dataW + bits.length < s.n) :
    runEvents (clocks bits ++ evs) s =
      runEvents evs { s with hdr := bits.foldl BitVec.shiftConcat s.hdr, n := s.n - bits.length,
                             sdoSeen := s.sdoSeen ++ List.replicate bits.length none,
                             draws := s.draws + bits.length } := by
  induction bits generalizing s with
  | nil => simp
  | cons b bs ih =>
    simp only [List.length_cons] at hn
    rw [clocks, List.cons_append, List.cons_append, runEvents_addrClock b _ hact hsck hlcs hq (by omega)]
    rw [ih (by simpa using hact) (by simpa using hsck) (by simpa using hlcs) (by simpa using hq) (by simp; omega)]
    simp only [List.foldl_cons, List.length_cons, List.append_assoc, List.replicate_succ, List.singleton_append]
    congr 2 <;> omega

/-- The clock of the read-request: rising edge 8 and falling edge 8 (R96, R100). -/
theorem runEvents_readRequestClock {s : State} (b : Bool) (evs : List Ev) (hact : s.act = true) (hsck : s.sckQ = false)
    (hlcs : s.lcs = false) (hq : s.sdoQ = none) (hN : 0 < s.cfg.dataW) (hn : s.n = s.cfg.dataW + 1)
    {h : Header} (hh : s.hdr.shiftConcat b = h) :
    runEvents (.sckRise b :: .sckFall :: evs) s =
      runEvents evs
        { s with
          hdr := h
          n := s.cfg.dataW
          sel := route s.cfg (headerAddr h)
          sout := loadedSout s (route s.cfg (headerAddr h))
          sdoQ := (loadedSout s (route s.cfg (headerAddr h))).map fun v => v.getLsbD (s.cfg.dataW - 1)
          lcs := linkOf s.cfg (route s.cfg (headerAddr h))
          lastIndex := loadedIndex s.cfg s.lastIndex (headerAddr h) (route s.cfg (headerAddr h))
          history := s.history ++ [.readRequest (headerAddr h) (headerWe h) (route s.cfg (headerAddr h))]
          sdoSeen := s.sdoSeen ++ [none]
          draws := s.draws + 1
          downstream := s.downstream ++ linkRise s.cfg (route s.cfg (headerAddr h)) } := by
  have hs : sdo s = none := by simp only [sdo, muxOut, hlcs, hq]; cases s.sel <;> simp
  rw [runEvents_cons_of_legal _ (by simp [legal, hsck]), runEvents_cons_of_legal _
    (by simp [legal, observe, effect, sckRise, phase, sckRiseAddr, readRequest, record, hact, hn])]
  congr 1
  generalize hr : route s.cfg (headerAddr h) = m
  cases m with
  | none =>
    simp [effect, observe, sckRise, sckFall, phase, sckRiseAddr, readRequest, record, hact, hsck, hn, hN, hh, hr,
      sckFallData, nextSdoQ, selectsLink, linkOf, linkRise, selectChanges, clockRises, activeLink, hlcs, hs, loadedSout,
      loadedIndex]
  | some e =>
    by_cases hk : hasLink s.cfg e = true <;>
    simp [effect, observe, sckRise, sckFall, phase, sckRiseAddr, readRequest, record, hact, hsck, hn, hN, hh, hr,
      sckFallData, nextSdoQ, selectsLink, linkOf, linkRise, selectChanges, clockRises, activeLink, hlcs, hs, loadedSout,
      loadedIndex, hk, regRead, statusLevel]

theorem sdo_eq_seenAt {s : State} (hact : s.act = true) (hlcs : s.lcs = linkOf s.cfg s.sel)
    (hq : s.sdoQ = s.sout.map fun v => v.getLsbD (s.n - 1)) :
    sdo s = seenAt s.cfg s.extSdoPin s.sel s.sout (s.n - 1) s.draws := by
  simp only [sdo, muxOut, seenAt, hact, hq, hlcs, linkOf, extSdoLevel]
  cases s.sel with
  | none => simp
  | some e => by_cases hk : hasLink s.cfg e = true <;> simp [hk]

/-- One clock of the DATA phase before the terminal edge (R97, R100). -/
theorem runEvents_dataClock {s : State} (b : Bool) (evs : List Ev) (hact : s.act = true) (hsck : s.sckQ = false)
    (hlcs : s.lcs = linkOf s.cfg s.sel) (hq : s.sdoQ = s.sout.map fun v => v.getLsbD (s.n - 1))
    (hn : 1 < s.n) (hN : s.n ≤ s.cfg.dataW) :
    runEvents (.sckRise b :: .sckFall :: evs) s =
      runEvents evs
        { s with
          din := shiftData s.cfg.dataW s.din b
          n := s.n - 1
          sdoQ := s.sout.map fun v => v.getLsbD (s.n - 1 - 1)
          sdoSeen := s.sdoSeen ++ [seenAt s.cfg s.extSdoPin s.sel s.sout (s.n - 1) s.draws]
          draws := s.draws + 1
          downstream := s.downstream ++ linkClock s.cfg s.sel b } := by
  have hs := sdo_eq_seenAt hact hlcs hq
  have h1 : ¬ s.cfg.dataW < s.n := by omega
  have h2 : 0 < s.n := by omega
  have h3 : s.n - 1 ≠ 0 := by omega
  have h4 : ¬ s.cfg.dataW < s.n - 1 := by omega
  have h5 : s.n - 1 ≠ s.cfg.dataW := by omega
  rw [runEvents_cons_of_legal _ (by simp [legal, hsck]), runEvents_cons_of_legal _
    (by simp [legal, observe, effect, sckRise, phase, sckRiseData, hact, h1, h2, h3])]
  congr 1
  generalize hr : s.sel = m at *
  cases m with
  | none =>
    simp [effect, observe, sckRise, sckFall, phase, sckRiseData, hact, hsck, hn, h1, h2, h3, h4, sckFallData, hr,
      nextSdoQ, selectsLink, linkOf, linkClock, selectChanges, clockRises, activeLink, hlcs, hs]
  | some e =>
    by_cases hk : hasLink s.cfg e = true <;>
    simp [effect, observe, sckRise, sckFall, phase, sckRiseData, hact, hsck, hn, h1, h2, h3, h4, h5, sckFallData, hr, hk,
      nextSdoQ, selectsLink, linkOf, linkClock, selectChanges, clockRises, activeLink, hlcs, hs, extSck, extCs, extSdi]

/-- The terminal clock: rising edge `L` and falling edge `L` (R97, R101). -/
theorem runEvents_terminalClock {s : State} (b : Bool) (evs : List Ev) (hact : s.act = true) (hsck : s.sckQ = false)
    (hlcs : s.lcs = linkOf s.cfg s.sel) (hq : s.sdoQ = s.sout.map fun v => v.getLsbD (s.n - 1))
    (hn : s.n = 1) (hN : 1 ≤ s.cfg.dataW) {d : Data} (hd : shiftData s.cfg.dataW s.din b = d) :
    runEvents (.sckRise b :: .sckFall :: evs) s =
      runEvents evs
        { s with
          din := d
          n := 0
          sdoQ := none
          lcs := false
          regs := endRegs s.cfg s.regs s.sel (headerWe s.hdr) d
          latch := endLatch s.cfg s.sel s.latch s.lastIndex
          history := s.history ++ (.frameComplete (headerAddr s.hdr) (headerWe s.hdr) d ::
                       endCommit s.cfg s.sel (headerWe s.hdr) d) ++ endStrobe s.cfg s.sel s.lastIndex
          sdoSeen := s.sdoSeen ++ [seenAt s.cfg s.extSdoPin s.sel s.sout 0 s.draws]
          draws := s.draws + 1
          downstream := s.downstream ++ linkClock s.cfg s.sel b ++ linkFall s.cfg s.sel } := by
  have hs := sdo_eq_seenAt hact hlcs hq
  rw [hn] at hs
  have h1 : ¬ s.cfg.dataW < 1 := by omega
  rw [runEvents_cons_of_legal _ (by simp [legal, hsck])]
  generalize hr : s.sel = m at *
  cases m with
  | none =>
    rw [runEvents_cons_of_legal _
      (by simp [legal, observe, effect, sckRise, phase, sckRiseData, hact, h1, hn, terminalCommit, record, hr])]
    congr 1
    simp [effect, observe, sckRise, sckFall, phase, sckRiseData, hact, hsck, hn, h1, sckFallDone, hr, hd, terminalCommit,
      record, groupActive, endRegs, endCommit, endLatch, endStrobe, groupSelected, linkFall, linkOf, linkClock,
      selectChanges, clockRises, activeLink, hlcs, hs]
  | some e =>
    cases hk : kindOf s.cfg e with
    | none =>
      have hl : hasLink s.cfg e = false := by simp [hasLink, hk]
      rw [runEvents_cons_of_legal _
        (by simp [legal, observe, effect, sckRise, phase, sckRiseData, hact, h1, hn, terminalCommit, record, hr, hk])]
      congr 1
      simp [effect, observe, sckRise, sckFall, phase, sckRiseData, hact, hsck, hn, h1, sckFallDone, hr, hd, terminalCommit,
        record, groupActive, endRegs, endCommit, endLatch, endStrobe, groupSelected, linkFall, linkOf, linkClock,
        selectChanges, clockRises, activeLink, hlcs, hs, hk, hl]
    | some k =>
      cases k with
      | register =>
        have hl := not_hasLink_of_register hk
        cases hw : headerWe s.hdr <;>
        · rw [runEvents_cons_of_legal _
            (by simp [legal, observe, effect, sckRise, phase, sckRiseData, hact, h1, hn, terminalCommit, record, hr, hk, hw,
                  regCommit])]
          congr 1
          simp [effect, observe, sckRise, sckFall, phase, sckRiseData, hact, hsck, hn, h1, sckFallDone, hr, hd,
            terminalCommit, record, groupActive, endRegs, endCommit, endLatch, endStrobe, groupSelected, linkFall, linkOf,
            linkClock, selectChanges, clockRises, activeLink, hlcs, hs, hk, hl, hw, regCommit]
      | passThrough =>
        have hl := hasLink_of_passThrough hk
        rw [runEvents_cons_of_legal _
          (by simp [legal, observe, effect, sckRise, phase, sckRiseData, hact, h1, hn, terminalCommit, record, hr, hk])]
        congr 1
        simp [effect, observe, sckRise, sckFall, phase, sckRiseData, hact, hsck, hn, h1, sckFallDone, hr, hd, terminalCommit,
          record, groupActive, endRegs, endCommit, endLatch, endStrobe, groupSelected, linkFall, linkOf, linkClock,
          selectChanges, clockRises, activeLink, hlcs, hs, hk, hl, extSck, extCs, extSdi]
      | group =>
        have hl := hasLink_of_group hk
        rw [runEvents_cons_of_legal _
          (by simp [legal, observe, effect, sckRise, phase, sckRiseData, hact, h1, hn, terminalCommit, record, hr, hk])]
        congr 1
        simp [effect, observe, sckRise, sckFall, phase, sckRiseData, hact, hsck, hn, h1, sckFallDone, hr, hd, terminalCommit,
          record, groupActive, endRegs, endCommit, endLatch, endStrobe, groupSelected, linkFall, linkOf, linkClock,
          selectChanges, clockRises, activeLink, hlcs, hs, hk, hl, extSck, extCs, extSdi, groupLatchSet]

/-- Some clocks of the DATA phase, short of the terminal edge (R97, R100). -/
theorem runEvents_dataClocks_partial (bits : List Bool) (evs : List Ev) {s : State} (hact : s.act = true)
    (hsck : s.sckQ = false) (hlcs : s.lcs = linkOf s.cfg s.sel) (hq : s.sdoQ = s.sout.map fun v => v.getLsbD (s.n - 1))
    (hn : bits.length < s.n) (hN : s.n ≤ s.cfg.dataW) :
    runEvents (clocks bits ++ evs) s =
      runEvents evs
        { s with
          din := bits.foldl (shiftData s.cfg.dataW) s.din
          n := s.n - bits.length
          sdoQ := s.sout.map fun v => v.getLsbD (s.n - bits.length - 1)
          sdoSeen := s.sdoSeen ++ seenBits s.cfg s.extSdoPin s.sel s.sout s.n s.draws bits.length
          draws := s.draws + bits.length
          downstream := s.downstream ++ bits.flatMap (linkClock s.cfg s.sel) } := by
  induction bits generalizing s with
  | nil => simp [seenBits, ← hq]
  | cons b bs ih =>
    simp only [List.length_cons] at hn
    rw [clocks, List.cons_append, List.cons_append, runEvents_dataClock b _ hact hsck hlcs hq (by omega) hN]
    rw [ih (by simpa using hact) (by simpa using hsck) (by simpa using hlcs) rfl (by simp; omega) (by simp; omega)]
    simp only [List.foldl_cons, List.length_cons, List.append_assoc, List.flatMap_cons, seenBits, List.cons_append,
      List.nil_append]
    rw [show s.n - 1 - bs.length = s.n - (bs.length + 1) by omega,
      show s.draws + 1 + bs.length = s.draws + (bs.length + 1) by omega]

theorem seenBits_snoc (c : Config) (pins : List (Nat × Bool)) (m : Option Nat) (v : Option Data)
    (n i count : Nat) :
    seenBits c pins m v n i count ++ [seenAt c pins m v (n - count - 1) (i + count)] =
      seenBits c pins m v n i (count + 1) := by
  induction count generalizing n i with
  | zero => simp [seenBits]
  | succ k ih =>
    rw [seenBits, List.cons_append, show n - (k + 1) - 1 = n - 1 - k - 1 by omega,
      show i + (k + 1) = i + 1 + k by omega, ih]
    rfl

/-- The rest of the DATA phase, up to and with the terminal clock (R97, R100, R101). -/
theorem runEvents_dataClocks (bits : List Bool) (evs : List Ev) {s : State} (hact : s.act = true)
    (hsck : s.sckQ = false) (hlcs : s.lcs = linkOf s.cfg s.sel) (hq : s.sdoQ = s.sout.map fun v => v.getLsbD (s.n - 1))
    (hn : bits.length = s.n) (hpos : 0 < s.n) (hN : s.n ≤ s.cfg.dataW) {d : Data}
    (hd : bits.foldl (shiftData s.cfg.dataW) s.din = d) :
    runEvents (clocks bits ++ evs) s =
      runEvents evs
        { s with
          din := d
          n := 0
          sdoQ := none
          lcs := false
          regs := endRegs s.cfg s.regs s.sel (headerWe s.hdr) d
          latch := endLatch s.cfg s.sel s.latch s.lastIndex
          history := s.history ++ (.frameComplete (headerAddr s.hdr) (headerWe s.hdr) d ::
                       endCommit s.cfg s.sel (headerWe s.hdr) d) ++ endStrobe s.cfg s.sel s.lastIndex
          sdoSeen := s.sdoSeen ++ seenBits s.cfg s.extSdoPin s.sel s.sout s.n s.draws s.n
          draws := s.draws + s.n
          downstream := s.downstream ++ bits.flatMap (linkClock s.cfg s.sel) ++ linkFall s.cfg s.sel } := by
  rcases List.eq_nil_or_concat bits with rfl | ⟨bs, b, rfl⟩
  · simp at hn; omega
  · simp only [List.concat_eq_append, List.length_append, List.length_singleton] at hn
    have h1 : s.n - bs.length = 1 := by omega
    have h2 := seenBits_snoc s.cfg s.extSdoPin s.sel s.sout s.n s.draws bs.length
    rw [h1, hn] at h2
    rw [List.concat_eq_append, clocks_append, List.append_assoc,
      runEvents_dataClocks_partial bs _ hact hsck hlcs hq (by omega) hN]
    simp only [clocks, List.cons_append, List.nil_append]
    rw [runEvents_terminalClock b _ (by simpa using hact) (by simpa using hsck) (by simpa using hlcs) (by simp)
      (by simpa using h1) (by simp; omega) (d := d) (by simpa using hd)]
    simp only [← h2, List.flatMap_append, List.flatMap_cons, List.flatMap_nil, List.append_nil, List.append_assoc,
      show s.draws + bs.length + 1 = s.draws + s.n by omega]

@[simp] theorem headerAddr_headerOf (a : Addr) (we : Bool) : headerAddr (headerOf a we) = a := by
  revert a we; decide

@[simp] theorem headerWe_headerOf (a : Addr) (we : Bool) : headerWe (headerOf a we) = we := by
  revert a we; decide

/-- The header of a frame: rising edges 1 to 8 and falling edges 1 to 8 (R95, R96, R99, R100). The read-request is at
observation instant `draws + 7`. -/
theorem runEvents_header (a : Addr) (we : Bool) (evs : List Ev) {s : State} (hact : s.act = true) (hsck : s.sckQ = false)
    (hinit : shiftInitial s) (hN : 0 < s.cfg.dataW) :
    runEvents (clocks (msbFirst 8 (headerOf a we)) ++ evs) s =
      runEvents evs
        { s with
          hdr := headerOf a we
          n := s.cfg.dataW
          sel := route s.cfg a
          sout := loadedSout { s with draws := s.draws + 7 } (route s.cfg a)
          sdoQ := (loadedSout { s with draws := s.draws + 7 } (route s.cfg a)).map fun v => v.getLsbD (s.cfg.dataW - 1)
          lcs := linkOf s.cfg (route s.cfg a)
          lastIndex := loadedIndex s.cfg s.lastIndex a (route s.cfg a)
          history := s.history ++ [.readRequest a we (route s.cfg a)]
          sdoSeen := s.sdoSeen ++ List.replicate 8 none
          draws := s.draws + 8
          downstream := s.downstream ++ linkRise s.cfg (route s.cfg a) } := by
  obtain ⟨hn, hh, -, -, -, hq, hl⟩ := hinit
  have hbits : msbFirst 8 (headerOf a we) = (msbFirst 8 (headerOf a we)).take 7 ++ [(headerOf a we).getLsbD 0] := rfl
  have hlen : ((msbFirst 8 (headerOf a we)).take 7).length = 7 := rfl
  have hfold : BitVec.shiftConcat (((msbFirst 8 (headerOf a we)).take 7).foldl BitVec.shiftConcat s.hdr)
      ((headerOf a we).getLsbD 0) = headerOf a we := by
    have := foldl_shiftConcat_header (headerOf a we)
    rw [hbits, List.foldl_append] at this
    rw [hh]
    exact this
  rw [hbits, clocks_append, List.append_assoc,
    runEvents_addrClocks _ _ hact hsck hl hq (by rw [hlen, hn, Config.frameLen]; omega)]
  simp only [clocks, List.cons_append, List.nil_append, hlen]
  rw [runEvents_readRequestClock _ _ (by simpa using hact) (by simpa using hsck) (by simpa using hl) (by simpa using hq)
    (by simpa using hN) (by simp only [hn, Config.frameLen]; omega) (h := headerOf a we) (by exact hfold)]
  have hload : ∀ (x : Option Nat) (h : Header) (n : Nat) (q : List (Option Bool)) (k : Nat),
      loadedSout { s with hdr := h, n := n, sdoSeen := q, draws := k } x = loadedSout { s with draws := k } x := by
    intros; rfl
  simp only [headerAddr_headerOf, headerWe_headerOf, List.append_assoc, hload, Nat.add_assoc,
    List.replicate_append_replicate, show ([none] : List (Option Bool)) = List.replicate 1 none from rfl, Nat.reduceAdd]

/-- A whole frame within an assertion, from a state where it starts (R87, R93 to R101): `m` is the selection, `i` the
sub-target index, `v` the chain the read-request loads. -/
theorem runEvents_frame (a : Addr) (we : Bool) (d : Data) (evs : List Ev) {s : State} (hact : s.act = true)
    (hsck : s.sckQ = false) (hinit : shiftInitial s) (hN : 1 ≤ s.cfg.dataW ∧ s.cfg.dataW ≤ 32)
    {m : Option Nat} {i : BitVec 2} {v : Option Data} (hm : route s.cfg a = m)
    (hi : loadedIndex s.cfg s.lastIndex a m = i) (hv : loadedSout { s with draws := s.draws + 7 } m = v) :
    runEvents (clocks (frameBits s.cfg.dataW a we d) ++ evs) s =
      runEvents evs
        { s with
          n := 0
          hdr := headerOf a we
          din := fitData s.cfg.dataW d
          sel := m
          sout := v
          regs := endRegs s.cfg s.regs m we (fitData s.cfg.dataW d)
          lastIndex := i
          latch := endLatch s.cfg m s.latch i
          history := s.history ++ (.readRequest a we m :: .frameComplete a we (fitData s.cfg.dataW d) ::
                       endCommit s.cfg m we (fitData s.cfg.dataW d)) ++ endStrobe s.cfg m i
          sdoSeen := s.sdoSeen ++ List.replicate 8 none ++
                       seenBits s.cfg s.extSdoPin m v s.cfg.dataW (s.draws + 8) s.cfg.dataW
          draws := s.draws + s.cfg.frameLen
          downstream := s.downstream ++ linkRise s.cfg m ++ (msbFirst s.cfg.dataW d).flatMap (linkClock s.cfg m) ++
                          linkFall s.cfg m } := by
  subst hm hi hv
  rw [frameBits, clocks_append, List.append_assoc, runEvents_header a we _ hact hsck hinit hN.1]
  obtain ⟨hn, hh, hdin, hsel, hsout, hq, hl⟩ := hinit
  rw [runEvents_dataClocks _ _ (by simpa using hact) (by simpa using hsck) rfl rfl (by simp)
    (Nat.lt_of_lt_of_le Nat.zero_lt_one hN.1) (by simp) (d := fitData s.cfg.dataW d)
    (by simpa [hdin] using foldl_shiftData_all hN.2 d)]
  simp only [headerAddr_headerOf, headerWe_headerOf, List.append_assoc, List.cons_append, List.nil_append, hq, hl,
    Config.frameLen, Nat.add_assoc]

/-- The state in which a frame starts after a fresh assertion. -/
def opened (s : State) : State := { frameInit s with act := true, sckQ := false, latch := 0#4 }

/-- The lead-in from an idle state: `CS_ASSERT`, and the clock lowered if it was high (R93). -/
theorem runEvents_leadIn {s : State} (evs : List Ev) (hact : s.act = false) :
    runEvents (leadIn s ++ evs) s = runEvents evs (opened s) := by
  have hN : s.cfg.dataW < s.cfg.frameLen := by simp [Config.frameLen]
  have h1 : applyEvent .csAssert s = .next { frameInit s with act := true, latch := 0#4 } := by
    simp [applyEvent, legal, hact, effect, csAssert, observe, selectChanges, activeLink, groupLatchClear, frameInit]
  cases hsck : s.sckQ with
  | false =>
    simp only [leadIn, hact, hsck, Bool.false_eq_true, if_false, Bool.false_and, List.append_nil, List.cons_append,
      List.nil_append, runEvents, h1]
    congr 1
    simp [opened, frameInit, hsck]
  | true =>
    have h2 : applyEvent .sckFall { frameInit s with act := true, latch := 0#4 } = .next (opened s) := by
      simp [applyEvent, legal, hsck, effect, sckFall, phase, observe, selectChanges, activeLink, hN, opened, frameInit]
    simp only [leadIn, hact, hsck, Bool.false_eq_true, if_false, if_true, Bool.false_and, List.append_nil,
      List.cons_append, List.nil_append, runEvents, h1, h2]

/-- Deasserting after a complete frame whose last falling edge has come (R94). -/
theorem applyEvent_csDeassert_done {s : State} (hact : s.act = true) (hn : s.n = 0) (hlcs : s.lcs = false) :
    applyEvent .csDeassert s = .next { frameInit s with act := false } := by
  have hg : groupActive s = false := by unfold groupActive; cases s.sel <;> simp [hlcs]
  simp [applyEvent, legal, hact, effect, csDeassert, deassertStrobe, recordAbort, hg, hn, observe, selectChanges,
    activeLink, hlcs, frameInit]

/-- A whole transaction from an idle state (R85, R87): everything it does. `m` is the binding its address selects, `i` the
sub-target index after its read-request, `v` the chain its read-request loads. -/
theorem xfer_of_idle (a : Addr) (we : Bool) (d : Data) {s : State} (hact : s.act = false)
    (hN : 1 ≤ s.cfg.dataW ∧ s.cfg.dataW ≤ 32) {m : Option Nat} {i : BitVec 2} {v : Option Data}
    (hm : route s.cfg a = m) (hi : loadedIndex s.cfg s.lastIndex a m = i)
    (hv : loadedSout { s with draws := s.draws + 7 } m = v) :
    xfer a we d s = .next
      { frameInit s with
        sckQ := false
        regs := endRegs s.cfg s.regs m we (fitData s.cfg.dataW d)
        lastIndex := i
        latch := endLatch s.cfg m 0#4 i
        history := s.history ++ (.readRequest a we m :: .frameComplete a we (fitData s.cfg.dataW d) ::
                     endCommit s.cfg m we (fitData s.cfg.dataW d)) ++ endStrobe s.cfg m i
        sdoSeen := s.sdoSeen ++ List.replicate 8 none ++
                     seenBits s.cfg s.extSdoPin m v s.cfg.dataW (s.draws + 8) s.cfg.dataW
        draws := s.draws + s.cfg.frameLen
        downstream := s.downstream ++ linkRise s.cfg m ++ (msbFirst s.cfg.dataW d).flatMap (linkClock s.cfg m) ++
                        linkFall s.cfg m } := by
  have hframe := runEvents_frame a we d [.csDeassert] (s := opened s) rfl rfl ⟨rfl, rfl, rfl, rfl, rfl, rfl, rfl⟩ hN hm hi hv
  rw [xfer, runBurst, burstEvents, List.append_assoc, runEvents_leadIn _ hact]
  simp only [leadOut, hact, Bool.false_eq_true, if_false]
  refine hframe.trans ?_
  simp only [runEvents]
  rw [applyEvent_csDeassert_done rfl rfl rfl]
  simp [opened, frameInit, hact]

/-- While no device is selected the master samples the chain, MSB first (R29, R60, R75). -/
theorem seenBits_chain (c : Config) (pins : List (Nat × Bool)) {m : Option Nat} (v : Data)
    (hm : linkOf c m = false) (n i : Nat) : seenBits c pins m (some v) n i n = (msbFirst n v).map some := by
  induction n generalizing i with
  | zero => rfl
  | succ n ih =>
    simp only [seenBits, msbFirst, List.map_cons, Nat.add_sub_cancel, ih]
    congr 1
    cases m with
    | none => rfl
    | some e =>
      have : hasLink c e = false := by simpa [linkOf] using hm
      simp [seenAt, this]

/-- While a device is selected the master samples what the device drives (R75, R122, R141). -/
theorem seenBits_device (s : State) {e : Nat} (v : Option Data) (hl : hasLink s.cfg e = true) (n i count : Nat) :
    seenBits s.cfg s.extSdoPin (some e) v n i count = deviceBits s e i count := by
  induction count generalizing n i with
  | zero => rfl
  | succ k ih =>
    rw [seenBits, ih, deviceBits, deviceBits, List.range_succ_eq_map, List.map_cons, List.map_map]
    simp only [seenAt, hl, if_true, Nat.add_zero]
    congr 1
    apply List.map_congr_left
    intro j _
    simp [Nat.add_assoc, Nat.add_comm 1 j]

/-- While nothing is selected the master samples `ANY` (R122). -/
theorem seenBits_silent (c : Config) (pins : List (Nat × Bool)) (n i count : Nat) :
    seenBits c pins none none n i count = List.replicate count none := by
  induction count generalizing n i with
  | zero => rfl
  | succ k ih => rw [seenBits, ih, List.replicate_succ]; rfl

theorem flatMap_linkClock_none (c : Config) {m : Option Nat} (hm : linkOf c m = false) (l : List Bool) :
    l.flatMap (linkClock c m) = [] := by
  induction l with
  | nil => rfl
  | cons b l ih => 
    rw [List.flatMap_cons, ih]
    cases m with
    | none => rfl
    | some e =>
      have : hasLink c e = false := by simpa [linkOf] using hm
      simp [linkClock, this]

theorem flatMap_linkClock (c : Config) {e : Nat} (hm : hasLink c e = true) (l : List Bool) :
    l.flatMap (linkClock c (some e)) = l.map (.clock e) := by
  induction l with
  | nil => rfl
  | cons b l ih =>
    rw [List.flatMap_cons, ih]
    simp [linkClock, hm]

/-- Every transaction is the run of its frame (R85, R87). -/
theorem exec_eq_xfer (i : Instr) (s : State) : exec i s = xfer i.addr i.we i.data s := by cases i <;> rfl

/-- Every transaction is a burst of its bits (R70, R85). -/
theorem exec_eq_runBurst (i : Instr) (s : State) : exec i s = runBurst (encode s.cfg i) s := exec_eq_xfer i s

end Sys2Proof.Machine
end

