-- ==== Sys2Proof/Laws/PerInstr.lean ====
section
/-! SUPPORT. The per-instruction family `HeaderInItsRow`: the header of every well-formed transaction lies in the row of the
opcode table that names it (R80). -/

namespace Sys2Proof.Laws.HeaderInItsRow

/-- The header of the transaction matches the value and mask of its own row (R80). -/
def Statement (i : Instr) : Prop :=
  ∀ c : Config, i.wellFormed c = true →
    ∃ row ∈ opRows c.addrMap, row.mnemonic = i.mnemonic ∧ headerOf i.addr i.we &&& row.mask = row.value

theorem regRd (hi : BitVec 3) (r : BitVec 2) (d : Data) : Statement (.regRd hi r d) := by
  intro c h
  refine ⟨_, List.mem_cons_self, rfl, ?_⟩
  simp only [Instr.addr, Instr.we]
  clear h
  revert hi r
  decide

theorem regWr (hi : BitVec 3) (r : BitVec 2) (d : Data) : Statement (.regWr hi r d) := by
  intro c h
  refine ⟨_, List.mem_cons_of_mem _ List.mem_cons_self, rfl, ?_⟩
  simp only [Instr.addr, Instr.we]
  clear h
  revert hi r
  decide

theorem pllXfer (hi : BitVec 3) (x : BitVec 2) (we : Bool) (d : Data) : Statement (.pllXfer hi x we d) := by
  intro c h
  refine ⟨_, List.mem_cons_of_mem _ (List.mem_cons_of_mem _ List.mem_cons_self), rfl, ?_⟩
  simp only [Instr.addr, Instr.we]
  clear h
  revert hi x we
  decide

theorem attXfer (hi : BitVec 3) (x : BitVec 2) (we : Bool) (d : Data) : Statement (.attXfer hi x we d) := by
  intro c h
  refine ⟨_, List.mem_cons_of_mem _ (List.mem_cons_of_mem _ (List.mem_cons_of_mem _ List.mem_cons_self)), rfl, ?_⟩
  simp only [Instr.addr, Instr.we]
  clear h
  revert hi x we
  decide

theorem grpXfer (hi : BitVec 3) (x : BitVec 2) (we : Bool) (d : Data) : Statement (.grpXfer hi x we d) := by
  intro c h
  have hm : c.addrMap = .group := by
    simp only [Instr.wellFormed, Bool.and_eq_true, decide_eq_true_eq] at h
    exact h.2
  rw [hm]
  clear hm h
  simp only [Instr.addr, Instr.we]
  refine ⟨_, List.mem_cons_of_mem _ (List.mem_cons_of_mem _ (List.mem_cons_of_mem _ (List.mem_cons_of_mem _
    List.mem_cons_self))), rfl, ?_⟩
  revert hi x we
  decide

theorem mezXfer (hi : BitVec 3) (x : BitVec 2) (we : Bool) (d : Data) : Statement (.mezXfer hi x we d) := by
  intro c h
  have hm : c.addrMap = .mezz := by
    simp only [Instr.wellFormed, Bool.and_eq_true, decide_eq_true_eq] at h
    exact h.2
  rw [hm]
  clear hm h
  simp only [Instr.addr, Instr.we]
  refine ⟨_, List.mem_cons_of_mem _ (List.mem_cons_of_mem _ (List.mem_cons_of_mem _ (List.mem_cons_of_mem _
    List.mem_cons_self))), rfl, ?_⟩
  revert hi x we
  decide

end Sys2Proof.Laws.HeaderInItsRow
end

