-- ==== Sys2Proof/Laws/Router.lean ====
section
/-! SUPPORT. Laws of the address router. -/

namespace Sys2Proof.Machine

/-- Matching depends on the patterns and masks alone (R111). -/
theorem matchesFrom_congr (a : Addr) {bs bs' : List Binding} (i : Nat)
    (h : bs.map (fun b => (b.pattern, b.mask)) = bs'.map (fun b => (b.pattern, b.mask))) :
    matchesFrom i a bs = matchesFrom i a bs' := by
  induction bs generalizing bs' i with
  | nil => cases bs' with
    | nil => rfl
    | cons => simp at h
  | cons b bs ih =>
    cases bs' with
    | nil => simp at h
    | cons b' bs' =>
      simp only [List.map_cons, List.cons.injEq, Prod.mk.injEq] at h
      have hb : binds b a = binds b' a := by simp only [binds, patternBits, maskBits, h.1.1, h.1.2]
      simp only [matchesFrom, hb, ih (i + 1) h.2]

end Sys2Proof.Machine
end

