-- ==== Sys2Proof/Tests/Slice0.lean ====
section
/-! SUPPORT. The model's own tests. The expected results are those of spec/95_test_vectors.md and 30_encoding.md R88; the
section is named at each test. Then one witness for each statement that has hypotheses. -/

namespace Sys2Proof.Tests

open Sys2Proof.Machine

/-! ## Helpers -/

/-- The next state of an outcome, if it has one. -/
def nextOf (o : Host.Outcome State Fault Refusal) : Option State :=
  match o with
  | .next t    => some t
  | .fault _   => none
  | .refused _ => none

/-- The refusal of an outcome, if it has one. -/
def refusalOf (o : Host.Outcome State Fault Refusal) : Option Refusal :=
  match o with
  | .next _    => none
  | .fault _   => none
  | .refused r => some r

/-- The state with a burst as its one pending input. -/
def sending (bits : List Bool) (s : State) : State := { s with pending := [.burst bits] }

/-- The word the master reads: its samples from the ninth on. -/
def reads (t : State) : List (Option Bool) := t.sdoSeen.drop 8

/-- The samples that make up a word of 16 bits. -/
def word (v : BitVec 16) : List (Option Bool) := (msbFirst 16 v).map some

/-- S0 of 95_test_vectors.md section 0, with its `status` levels pinned, and PLL2, ATT1 and GRP driving 1. -/
def s0 : State :=
  { State.reset with statusPin := [(2, 0x5A5A#32), (3, 0x0F0F#32)], extSdoPin := [(6, true), (9, true), (12, true)] }

/-- S0 with a value in REG0. -/
def s0With (v : Data) : State := { s0 with regs := [(0, v), (1, 0#32), (3, 0#32)] }

/-- S0 with back-to-back framing. -/
def s0B2B : State := { s0 with cfg := { boardConfig with backToBack := true } }

/-- S0 under `ADDR_MAP = MEZZ`. -/
def s0Mezz : State := { s0 with cfg := boardConfigWith .mezz }

/-! ## WellFormed: what each check refuses -/

theorem test_wellFormed_refuses_wide_data : (Instr.regWr 0 0 0x10000#32).wellFormed boardConfig = false := by decide

theorem test_wellFormed_refuses_wide_data_of_each_row :
    (Instr.regRd 0 0 0x10000#32).wellFormed boardConfig = false ∧
    (Instr.pllXfer 0 0 false 0x10000#32).wellFormed boardConfig = false ∧
    (Instr.attXfer 0 0 false 0x10000#32).wellFormed boardConfig = false ∧
    (Instr.grpXfer 0 0 false 0x10000#32).wellFormed boardConfig = false ∧
    (Instr.mezXfer 0 0 false 0x10000#32).wellFormed (boardConfigWith .mezz) = false := by decide

theorem test_wellFormed_refuses_group_under_mezz :
    (Instr.grpXfer 0 0 false 0#32).wellFormed (boardConfigWith .mezz) = false := by decide

theorem test_wellFormed_refuses_mezz_under_group : (Instr.mezXfer 0 0 false 0#32).wellFormed boardConfig = false := by decide

theorem test_wellFormed_accepts : (Instr.regWr 7 3 0xFFFF#32).wellFormed boardConfig = true := by decide

/-! ## Decoding: words written out bit by bit from the table of R80 (address, then write-enable, then the data) -/

/-- `WR 0x70, 1`: address 1110000, we 1. -/
theorem test_decode_regWr : decode boardConfig
    ([true, true, true, false, false, false, false, true] ++ msbFirst 16 1#16) = .ok (.regWr 7 0 1) := by rfl

/-- `RD 2`: address 0000010, we 0. -/
theorem test_decode_regRd : decode boardConfig
    ([false, false, false, false, false, true, false, false] ++ msbFirst 16 0#16) = .ok (.regRd 0 2 0) := by rfl

/-- `PLL 2`: address 0000110, we 0. -/
theorem test_decode_pllXfer : decode boardConfig
    ([false, false, false, false, true, true, false, false] ++ msbFirst 16 0xA5#16) = .ok (.pllXfer 0 2 false 0xA5) := by rfl

/-- Address 0101010 (ATT2), we 1. -/
theorem test_decode_attXfer : decode boardConfig
    ([false, true, false, true, false, true, false, true] ++ msbFirst 16 0x3F#16) = .ok (.attXfer 2 2 true 0x3F) := by rfl

/-- Address 1111101 (GRP index 1), we 0. -/
theorem test_decode_grpXfer : decode boardConfig
    ([true, true, true, true, true, false, true, false] ++ msbFirst 16 5#16) = .ok (.grpXfer 7 1 false 5) := by rfl

/-- `MEZ 3`: address 0001111, we 0, under `ADDR_MAP = MEZZ`. -/
theorem test_decode_mezXfer : decode (boardConfigWith .mezz)
    ([false, false, false, true, true, true, true, false] ++ msbFirst 16 1#16) = .ok (.mezXfer 0 3 false 1) := by rfl

theorem test_decode_refuses_by_name :
    (decode boardConfig (List.replicate 23 false) = .error .short) ∧
    decode boardConfig (List.replicate 25 false) = .error .long := by exact ⟨rfl, rfl⟩

/-- The header byte is the lowest byte of a table word and goes first. -/
theorem test_decodeTableWord : decodeTableWord 24 0xEFBE01 = some (.regWr 0 0 0xBEEF) ∧
    decodeTableWord 8 0x0C = some (.pllXfer 0 2 false 0) := by exact ⟨rfl, rfl⟩

/-- The step that follows runs the placed word's transaction: `WR 3` of 0xABCD is committed. -/
theorem test_withFetchWord :
    ((nextOf (step (State.reset.withFetchWord 24 0xCDAB07))).map fun t => t.regs) =
      some [(0, 0#32), (1, 0#32), (3, 0xABCD#32)] := by decide +kernel

/-- 95 section 2.2.1. -/
theorem test_routes :
    [0x00#7, 0x70#7, 0x13#7, 0x25#7, 0x2A#7, 0x3C#7, 0x4E#7, 0x7D#7, 0x7F#7].map (route boardConfig) =
      [some 0, some 0, some 3, some 5, some 10, some 12, some 12, some 12, some 12] ∧
    [0x3C#7, 0x4E#7, 0x7D#7, 0x7F#7].map (route (boardConfigWith .mezz)) = [some 12, some 14, some 13, some 15] := by
  decide

/-! ## Configuration (95 sections 1.2, 2.2.2, 2.2.3) -/

/-- A Register binding. -/
def reg (p m : Nat) : Binding := registerRow "R" p (some .rw) (some 0#32) |> fun b => { b with mask := m }

/-- A Group binding. -/
def grp (p m : Nat) : Binding := { reg p m with kind := .group }

/-- CFG-T with another list of bindings. -/
def withBindings (bs : List Binding) : Config := { boardConfig with bindings := bs }

theorem test_intersects :
    [(reg 0x00 0x0F, reg 0x00 0x0F), (reg 0x04 0x0F, reg 0x0C 0x0C), (reg 0x03 0x0F, reg 0x0C 0x0C),
     (reg 0x0C 0x0F, reg 0x0C 0x0C), (reg 0x00 0x00, reg 0x05 0x0F), (reg 0x10 0x10, reg 0x01 0x01),
     (reg 0x40 0x40, reg 0x00 0x40)].map (fun p => intersects p.1 p.2) =
      [true, false, false, true, true, true, false] := by decide

theorem test_admission_failures :
    configError (withBindings (boardConfig.bindings ++ [reg 0x00 0x0F])) = some (.overlap 0 13) ∧
    configError (withBindings [reg 0x10 0x0F]) = some (.patternOutsideMask 0) ∧
    configError (withBindings [reg 0x80 0x0F]) = some (.width 0) ∧
    configError (withBindings (boardConfig.bindings.modify 4 fun b => { b with fanout := true })) =
      some (.fanoutNotGroup 4) ∧
    configError (withBindings [grp 0x0C 0x0C, grp 0x08 0x0C]) = some (.multipleGroups [0, 1]) ∧
    configError { boardConfig with dataW := 0 } = some (.dataWidth 0) ∧
    configError { boardConfig with dataW := 33 } = some (.dataWidth 33) ∧
    configError (withBindings (boardConfig.bindings.modify 2 fun b => { b with regKind := none })) =
      some (.missingRegParam 2) ∧
    configError boardConfig = none := by decide

theorem test_scenarioB : registerAll [reg 0x00 0x0F, reg 0x00 0x0F] = .error (.overlap 0 1) := by rfl

/-! ## The transactions -/

/-- 95 section 1.1, step 2. -/
theorem test_regRd_round_trip :
    ((nextOf (step (sending (msbFirst 24 0x000000#24) (s0With 0xBEEF#32)))).map fun t => (reads t, t.history, t.regs)) =
      some (word 0xBEEF#16, [.readRequest 0x00#7 false (some 0), .frameComplete 0x00#7 false 0#32],
        (s0With 0xBEEF#32).regs) := by decide +kernel

/-- 95 section 2.3, R-1: a read-only register returns its status. -/
theorem test_regRd_status :
    ((nextOf (step (sending (msbFirst 24 0x040000#24) s0))).map fun t => (reads t, t.regs)) =
      some (word 0x5A5A#16, s0.regs) := by rfl

/-- 95 section 2.3, isolation: the frame reads the old value and writes the new one. -/
theorem test_regWr_isolation :
    ((nextOf (step (sending (msbFirst 24 0x011234#24) (s0With 0xBEEF#32)))).map fun t => (reads t, t.history, t.regs)) =
      some (word 0xBEEF#16,
        [.readRequest 0x00#7 true (some 0), .frameComplete 0x00#7 true 0x1234#32, .writeCommit 0 0x1234#32],
        [(0, 0x1234#32), (1, 0#32), (3, 0#32)]) := by decide +kernel

/-- 95 section 2.3, R-3: a write-only register returns its status and drives its value. -/
theorem test_regWr_writeOnly :
    ((nextOf (step (sending (msbFirst 24 0x071234#24) s0))).map fun t => (reads t, regQ t 3, regQ t 2)) =
      some (word 0x0F0F#16, some 0x1234#32, none) := by decide +kernel

/-- 95 section 2.4, P-1. -/
theorem test_pllXfer_relay :
    ((nextOf (step (sending (msbFirst 24 0x0C00A5#24) s0))).map fun t => (reads t, t.downstream, t.regs, t.latch)) =
      some (word 0xFFFF#16, [.csRise 6] ++ (msbFirst 16 0xA5#16).map (.clock 6) ++ [.csFall 6], s0.regs, 0#4) := by rfl

/-- 95 section 2.4, P-2: `we = 1` changes nothing. -/
theorem test_pllXfer_we :
    ((nextOf (step (sending (msbFirst 24 0x0D00A5#24) s0))).map fun t => (reads t, t.history, t.regs)) =
      some (word 0xFFFF#16, [.readRequest 0x06#7 true (some 6), .frameComplete 0x06#7 true 0xA5#32], s0.regs) := by decide +kernel

/-- 95 section 2.4, P-3. -/
theorem test_attXfer_relay :
    ((nextOf (step (sending (msbFirst 24 0x12003F#24) s0))).map fun t => (t.downstream, t.lastIndex)) =
      some ([.csRise 9] ++ (msbFirst 16 0x3F#16).map (.clock 9) ++ [.csFall 9], 0#2) := by rfl

/-- 95 section 2.5, G-1. -/
theorem test_grpXfer_strobe :
    ((nextOf (step (sending (msbFirst 24 0x1C8001#24) s0))).map fun t => (t.latch, t.lastIndex, t.downstream)) =
      some (0b0100#4, 2#2, [.csRise 12] ++ (msbFirst 16 0x8001#16).map (.clock 12) ++ [.csFall 12]) := by rfl

/-- 95 section 1.4, step 2: the old line is cleared before the new one rises. -/
theorem test_grpXfer_scenarioD :
    ((nextOf (step (sending (msbFirst 24 0x1A0000#24) { s0 with latch := 0b0001#4 }))).map fun t => (t.latch, t.lastIndex)) =
      some (0b0010#4, 1#2) := by rfl

/-- 95 section 2.4, P-7. -/
theorem test_mezXfer_relay :
    ((nextOf (step (sending (msbFirst 24 0x1E0001#24) s0Mezz))).map fun t => (t.downstream, t.latch)) =
      some ([.csRise 15] ++ (msbFirst 16 1#16).map (.clock 15) ++ [.csFall 15], 0#4) := by rfl

/-! ## Frames that are not of the full length -/

/-- 95 section 1.3. -/
theorem test_scenarioC :
    ((nextOf (step (sending ((msbFirst 24 0x011234#24).take 10) (s0With 0xBEEF#32)))).map fun t =>
        (reads t, t.history, t.regs, t.n)) =
      some ([some true, some false], [.readRequest 0x00#7 true (some 0), .frameAborted 10], (s0With 0xBEEF#32).regs, 24) := by
  rfl

/-- 95 section 2.1.2, at the boundaries `k` = 0, 7, 8 and 23. -/
theorem test_aborts :
    ([0, 7, 8, 23].map fun k => (nextOf (step (sending ((msbFirst 24 0x011234#24).take k) (s0With 0xBEEF#32)))).map fun t =>
        (t.history, (reads t).length)) =
      [some ([], 0), some ([.frameAborted 7], 0),
       some ([.readRequest 0x00#7 true (some 0), .frameAborted 8], 0),
       some ([.readRequest 0x00#7 true (some 0), .frameAborted 23], 15)] := by rfl

/-- 95 section 2.4, P-4 and P-5: the device sees the clocks so far, and its select falls. -/
theorem test_abort_passThrough :
    ([12, 8].map fun k => (nextOf (step (sending ((msbFirst 24 0x0C00A5#24).take k) s0))).map fun t => t.downstream) =
      [some ([.csRise 6] ++ List.replicate 4 (.clock 6 false) ++ [.csFall 6]), some [.csRise 6, .csFall 6]] := by rfl

/-- 95 section 2.1.3: six more clocks add one commit in all. -/
theorem test_extra_clocks :
    ((nextOf (step (sending (msbFirst 24 0x015678#24 ++ List.replicate 6 false) (s0With 0x1234#32)))).map fun t =>
        ((reads t).take 16, t.regs, t.history.length)) =
      some (word 0x1234#16, [(0, 0x5678#32), (1, 0#32), (3, 0#32)], 3) := by rfl

/-- 95 section 2.1.4: the read-request of frame 2 comes after the commit of frame 1. -/
theorem test_back_to_back :
    ((nextOf (step (sending (msbFirst 24 0x010F0F#24 ++ [true] ++ msbFirst 24 0x000000#24) s0B2B))).map fun t =>
        (t.sdoSeen.drop 33, t.regs)) =
      some (word 0x0F0F#16, [(0, 0x0F0F#32), (1, 0#32), (3, 0#32)]) := by rfl

/-- 95 section 2.1.7: `N = 1`. -/
theorem test_width_one :
    ((nextOf (step (sending (msbFirst 9 0x003#9) { s0 with cfg := { boardConfig with dataW := 1 } }))).map fun t => t.regs) =
      some [(0, 1#32), (1, 0#32), (3, 0#32)] := by rfl

/-- 95 section 2.2.4: no binding matches. -/
theorem test_no_match :
    ((nextOf (step (sending (msbFirst 24 0x0A0000#24)
        (State.powerOnState (withBindings [reg 0x00 0x7F]))))).map fun t => (reads t, t.history)) =
      some (List.replicate 16 none, [.readRequest 5#7 false none, .frameComplete 5#7 false 0#32]) := by decide +kernel

/-! ## Single events and samples -/

/-- Between the terminal rising edge and its falling edge of a group frame (95 section 2.5, its last vector). -/
def groupTerminal : State :=
  { s0 with act := true, sckQ := true, n := 0, hdr := 0x1C#8, din := 0x8001#32, sel := some 12, lcs := true, lastIndex := 2#2 }

theorem test_deassert_strobes :
    ((nextOf (applyEvent .csDeassert groupTerminal)).map fun t => (t.latch, t.history, t.sckQ)) =
      some (0b0100#4, [.latchStrobe 2#2], true) := by rfl

/-- 95 section 2.1.6. -/
theorem test_refused_events :
    refusalOf (applyEvent .csDeassert s0) = some (.illegal .csDeassert) ∧
    refusalOf (applyEvent .sckFall s0) = some (.illegal .sckFall) ∧
    refusalOf (runEvents [.csAssert, .csAssert] s0) = some (.illegal .csAssert) ∧
    refusalOf (runEvents [.sckRise false, .sckRise false] s0) = some (.illegal (.sckRise false)) := by decide

/-- Chip-select is asserted and the clock low. -/
def asserted : State := { s0 with act := true }

/-- 95 section 2.1.5. -/
theorem test_samples :
    ((nextOf (onClockEdge true false true s0)).map fun t => t) = some s0 ∧
    ((nextOf (onClockEdge false false false s0)).map fun t => (t.act, t.n, t.sckQ)) = some (true, 24, false) ∧
    ((nextOf (onClockEdge false true true asserted)).map fun t => (t.n, t.hdr)) = some (23, 0x01#8) ∧
    ((nextOf (onClockEdge false true false s0)).map fun t => (t.act, t.n, t.sckQ)) = some (true, 24, true) ∧
    ((nextOf (onClockEdge true true false { asserted with n := 14 })).map fun t => (t.act, t.n, t.sckQ, t.history)) =
      some (false, 24, true, [.frameAborted 10]) := by decide

/-! ## Witnesses: for each statement with hypotheses, values that meet them, each clause at a boundary of its range -/

/-- The state before the read-request edge, with the seven header bits so far. -/
def beforeRequest (h : Header) : State := { asserted with n := 17, hdr := h }

/-- The DATA phase of a write to REG0, with `k` bits still to come. -/
def writing (k : Nat) : State :=
  { asserted with n := k, hdr := 0x01#8, sel := some 0, sout := some 0xBEEF#32, sdoQ := some true }

/-- The first bit of a read of REG0 is on the output. -/
def readingFirst : State := { asserted with n := 16, hdr := 0x00#8, sel := some 0, sout := some 0x8000#32, sdoQ := some true }

/-- A back-to-back block between two frames. -/
def betweenFrames : State := { s0B2B with act := true, n := 0, hdr := 0x00#8, sel := some 0, sout := some 0#32 }

theorem witness_PowerOnGivesEveryFieldItsResetValue :
    admitted boardConfig = true ∧ (boardConfig.bindings[3]?).map (fun b => (isStored b, b.regReset)) = some (true, some 0#32) ∧
    admitted { boardConfig with dataW := 1 } = true ∧ admitted { boardConfig with dataW := 32 } = true := by decide

theorem witness_UnadmittedConfigurationNeverRuns :
    configError { boardConfig with dataW := 33 } = some (.dataWidth 33) := by decide

/-- Two causes at once for codes 2 and 6; `test_admission_failures` has a configuration for each code. -/
theorem witness_ReportedErrorHasTheSmallestCode :
    configError { withBindings [reg 0x10 0x0F] with dataW := 0 } = some (.patternOutsideMask 0) ∧
    causeHolds { withBindings [reg 0x10 0x0F] with dataW := 0 } (.dataWidth 0) := ⟨by decide, rfl, .inl rfl⟩

theorem witness_ReportedOverlapIsTheFirstPair :
    configError (withBindings [reg 1 0x0F, reg 2 0x0F, reg 2 0x0F, reg 1 0x0F]) = some (.overlap 0 3) ∧
    intersects (reg 2 0x0F) (reg 2 0x0F) = true := by decide

theorem witness_IntersectionTestFindsExactlyTheCommonAddresses :
    patternInMask (reg 0x10 0x10) = true ∧ patternInMask (reg 0x01 0x01) = true ∧
    intersects (reg 0x10 0x10) (reg 0x01 0x01) = true ∧ intersects (reg 0x00 0x40) (reg 0x40 0x40) = false := by decide

theorem witness_RegistrationFailsExactlyOnOverlap :
    (∃ x ∈ [reg 0 0x0F], intersects (reg 0 0x0F) x = true) ∧ (∀ x ∈ [reg 0 0x0F], intersects (reg 1 0x0F) x = false) ∧
    [reg 0 0x0F, reg 1 0x0F].Perm [reg 1 0x0F, reg 0 0x0F] ∧
    registerAll [reg 0 0x0F, reg 1 0x0F] = .ok [reg 0 0x0F, reg 1 0x0F] :=
  ⟨⟨_, List.mem_cons_self, by decide⟩, by decide, List.Perm.swap _ _ _, rfl⟩

theorem witness_RoutingFindsTheOneBinding :
    admitted (withBindings [reg 0x00 0x7F]) = true ∧ route (withBindings [reg 0x00 0x7F]) 0#7 = some 0 ∧
    route (withBindings [reg 0x00 0x7F]) 5#7 = none := by decide

theorem witness_CanonicalTable : CanonicalTable boardConfig ∧ CanonicalTable (boardConfigWith .mezz) :=
  ⟨⟨true, boardRegKind, boardRegReset, rfl⟩, ⟨true, boardRegKind, boardRegReset, rfl⟩⟩

theorem witness_CanonicalTableDecodesTheLowNibble :
    CanonicalTable boardConfig ∧ addrNibble 0x7F#7 = addrNibble 0x0F#7 ∧
    canonicalPosition boardConfig.addrMap 0x7F#7 = 12 ∧ canonicalPosition .mezz 0x7F#7 = 15 :=
  ⟨witness_CanonicalTable.1, by decide, by decide, by decide⟩

theorem witness_CanonicalTableIsAdmitted :
    boardConfig.bindings = canonicalBindings boardConfig.addrMap true boardRegKind boardRegReset ∧
    1 ≤ boardConfig.dataW ∧ boardConfig.dataW ≤ 32 ∧
    ∀ r, (boardRegKind r).isSome = true ∧ (boardRegKind r ≠ some .ro → (boardRegReset r).isSome = true) :=
  ⟨rfl, by decide, by decide, by decide⟩

theorem witness_FrameBitsStandInTheOrderOfTheFormat :
    [0, 6, 7, 8, 23].map (fun k => (encode boardConfig (.regWr 4 1 0x8001#32))[k]?) =
      [some true, some true, some true, some true, some true] ∧
    (encode boardConfig (.regWr 4 1 0x8001#32))[24]? = none := by decide

theorem witness_WireBitsAreTheFrameWordsBits :
    dataFits boardConfig (Instr.regWr 0 0 0xFFFF#32).data = true ∧ 1 ≤ boardConfig.frameLen ∧
    (frameWord boardConfig (.regWr 0 0 0xBEEF#32)) = 0x01BEEF := by decide

theorem witness_DecodeInvertsEncode :
    boardConfig.dataW ≤ 32 ∧ (Instr.regRd 7 3 0xFFFF#32).wellFormed boardConfig = true ∧
    (Instr.regWr 7 3 0xFFFF#32).wellFormed boardConfig = true ∧ (Instr.pllXfer 7 3 true 0#32).wellFormed boardConfig = true ∧
    (Instr.attXfer 7 3 true 0#32).wellFormed boardConfig = true ∧ (Instr.grpXfer 7 3 true 0#32).wellFormed boardConfig = true ∧
    (Instr.mezXfer 7 3 true 0#32).wellFormed (boardConfigWith .mezz) = true := by decide

theorem witness_EncodeInvertsDecode :
    boardConfig.dataW ≤ 32 ∧ decode boardConfig (List.replicate 24 true) = .ok (.grpXfer 7 3 true 0xFFFF#32) :=
  ⟨by decide, rfl⟩

theorem witness_ExactlyTheFullLengthDecodes :
    (List.replicate 24 true).length = boardConfig.frameLen ∧ (List.replicate 23 true).length < boardConfig.frameLen ∧
    boardConfig.frameLen < (List.replicate 25 true).length := by decide

theorem witness_StepRunsTheDecodedTransaction :
    admitted s0.cfg = true ∧ (sending (msbFirst 24 0x01BEEF#24) s0).pending = .burst (msbFirst 24 0x01BEEF#24) :: [] ∧
    decode s0.cfg (msbFirst 24 0x01BEEF#24) = .ok (.regWr 0 0 0xBEEF) := ⟨by decide, rfl, rfl⟩

theorem witness_StepTakesTheNextInput :
    admitted s0.cfg = true ∧ s0.pending = [] ∧
    (sending (List.replicate 23 true) s0).pending = .burst (List.replicate 23 true) :: [] ∧
    (List.replicate 23 true).length ≠ s0.cfg.frameLen ∧
    ({ s0 with pending := [.event .csAssert] } : State).pending = .event .csAssert :: [] ∧
    ({ s0 with pending := [.sample true true true] } : State).pending = .sample true true true :: [] ∧
    (∃ t, onClockEdge true true true { s0 with pending := [] } = .next t) ∧
    ({ s0 with pending := [.driveStatus 2 none] } : State).pending = .driveStatus 2 none :: [] ∧
    ({ s0 with pending := [.driveExtSdo 6 none] } : State).pending = .driveExtSdo 6 none :: [] :=
  ⟨by decide, rfl, rfl, by decide, rfl, rfl, ⟨_, rfl⟩, rfl, rfl⟩

theorem witness_NothingStopsTheMachineAtRunTime :
    admitted s0.cfg = true ∧
    ({ s0 with pending := [.sample true true true] } : State).pending = .sample true true true :: [] ∧
    ∀ ev, Input.sample true true true ≠ .event ev := ⟨by decide, rfl, by intro ev h; cases h⟩

theorem witness_ExactlyTheImpossibleEventsAreRefused :
    asserted.act = true ∧ s0.act = false ∧ groupTerminal.sckQ = true ∧ s0.sckQ = false := by decide

theorem witness_ChipSelectAssertionStartsAFrame : s0.act = false := by decide

theorem witness_ChipSelectDeassertionEndsOrAbortsTheFrame :
    (groupTerminal.act = true ∧ groupTerminal.n = 0 ∧ groupTerminal.lcs = true ∧ selects groupTerminal .group) ∧
    ((writing 1).act = true ∧ 0 < (writing 1).n ∧ (writing 1).n < (writing 1).cfg.frameLen) ∧
    (asserted.act = true ∧ ¬ asserted.n < asserted.cfg.frameLen ∧ asserted.n ≠ 0) := by decide

theorem witness_AddressPhaseEdgeShiftsTheHeader :
    (asserted.act = true ∧ asserted.sckQ = false ∧ asserted.cfg.dataW < asserted.n ∧ asserted.n - 1 ≠ asserted.cfg.dataW) ∧
    ((beforeRequest 0#8).act = true ∧ (beforeRequest 0#8).sckQ = false ∧
      (beforeRequest 0#8).cfg.dataW < (beforeRequest 0#8).n ∧ (beforeRequest 0#8).n - 1 = (beforeRequest 0#8).cfg.dataW) := by
  decide

theorem witness_ReadRequestLoadsTheSelectedEndpoint :
    ((beforeRequest 0#8).act = true ∧ (beforeRequest 0#8).sckQ = false ∧
      (beforeRequest 0#8).n = (beforeRequest 0#8).cfg.dataW + 1) ∧
    [0x03#8, 0x0C#8, 0x18#8].map (fun h => (route boardConfig (headerAddr h)).bind (kindOf boardConfig)) =
      [some .register, some .passThrough, some .group] ∧
    route (withBindings [reg 0x00 0x7F]) (headerAddr 0x0A#8) = none := by decide

theorem witness_DataPhaseEdgeShiftsAndTheLastOneCommits :
    ((writing 16).act = true ∧ (writing 16).sckQ = false ∧ (writing 16).n = (writing 16).cfg.dataW ∧ (writing 16).n ≠ 1) ∧
    ((writing 1).n = 1 ∧ headerWe (writing 1).hdr = true ∧ kindOf (writing 1).cfg 0 = some .register) ∧
    headerWe { writing 1 with hdr := 0x00#8 }.hdr = false := by decide

theorem witness_RisingEdgeAfterTheFrameRestartsOrDoesNothing :
    (betweenFrames.act = true ∧ betweenFrames.sckQ = false ∧ betweenFrames.n = 0 ∧ betweenFrames.cfg.backToBack = true) ∧
    ((writing 0).act = true ∧ (writing 0).sckQ = false ∧ (writing 0).n = 0 ∧ (writing 0).cfg.backToBack = false) := by decide

theorem witness_FallingEdgeDrivesTheNextBit :
    (({ writing 16 with sckQ := true } : State).act = true ∧ ({ writing 1 with sckQ := true } : State).sckQ = true ∧
      0 < (writing 1).n ∧ (writing 16).n ≤ (writing 16).cfg.dataW ∧ (writing 16).sout = some 0xBEEF#32) ∧
    (let s : State := { asserted with sckQ := true, n := 16, hdr := 0x0C#8, sel := some 6 }
     s.act = true ∧ s.sckQ = true ∧ s.n = s.cfg.dataW ∧ selects s .passThrough ∧ s.sout = none) := by decide

theorem witness_FallingEdgeAfterTheFrameEndsTheLocalSelect :
    (groupTerminal.act = true ∧ groupTerminal.sckQ = true ∧ groupTerminal.n = 0 ∧ groupTerminal.lcs = true ∧
      selects groupTerminal .group) ∧
    (let s : State := { writing 0 with sckQ := true }
     s.act = true ∧ s.sckQ = true ∧ s.n = 0 ∧ s.lcs = false) := by decide

theorem witness_IdleClockEdgesChangeOnlyTheClockLevel :
    (s0.act = false ∧ s0.sckQ = false) ∧ ({ s0 with sckQ := true } : State).sckQ = true ∧
    (let s : State := { asserted with sckQ := true, n := 17 }
     s.act = true ∧ s.sckQ = true ∧ s.cfg.dataW < s.n) := by decide

theorem witness_SamplesApplyOneEdge :
    true = (false == s0.cfg.csActiveLevel) ∧ true ≠ s0.act ∧
    (true = (false == asserted.cfg.csActiveLevel) ∧ true = asserted.act ∧ true ≠ asserted.sckQ ∧ false = asserted.sckQ) := by
  decide

theorem witness_RegistersChangeOnlyAtTheTerminalEdge :
    ∃ t, applyEvent (.sckRise true) (writing 1) = .next t ∧ regGet t.regs 0 ≠ regGet (writing 1).regs 0 ∧
      RegFileShape (writing 1) := ⟨_, rfl, by decide, by decide⟩

theorem witness_RegisterOutputsFollowTheStoredValue :
    ((writing 1).cfg.bindings[0]?).map isStored = some true ∧ ((writing 1).cfg.bindings[2]?).map isStored = some false ∧
    ∃ t, applyEvent (.sckRise true) (writing 1) = .next t ∧ regQ t 0 ≠ regQ (writing 1) 0 :=
  ⟨by decide, by decide, _, rfl, by decide⟩

theorem witness_WriteCommitIsRecordedExactlyAtTheTerminalEdge :
    ∃ t, applyEvent (.sckRise true) (writing 1) = .next t := ⟨_, rfl⟩

theorem witness_LatchLinesRiseOnlyAtTheEndOfAGroupFrame :
    (∃ t, applyEvent .sckFall groupTerminal = .next t ∧ groupTerminal.latch.getLsbD 2 = false ∧ t.latch.getLsbD 2 = true) ∧
    (∃ t, applyEvent .csAssert { s0 with latch := 8#4 } = .next t ∧
      ({ s0 with latch := 8#4 } : State).latch.getLsbD 3 = true ∧ t.latch.getLsbD 3 = false) :=
  ⟨⟨_, rfl, by decide, by decide⟩, ⟨_, rfl, by decide, by decide⟩⟩

theorem witness_IndexChangesOnlyAtAGroupReadRequest :
    ∃ t, applyEvent (.sckRise false) (beforeRequest 0x0F#8) = .next t ∧ t.lastIndex ≠ (beforeRequest 0x0F#8).lastIndex :=
  ⟨_, rfl, by decide⟩

theorem witness_SelectionAndChainAreFixedForTheFrame :
    ∃ t, applyEvent (.sckRise false) (beforeRequest 0#8) = .next t ∧
      (t.sel ≠ (beforeRequest 0#8).sel ∨ t.sout ≠ (beforeRequest 0#8).sout) := ⟨_, rfl, .inl (by decide)⟩

theorem inv_groupTerminal : Inv groupTerminal := by and_intros <;> decide

theorem inv_readingFirst : Inv readingFirst := by and_intros <;> decide

theorem inv_betweenFrames : Inv betweenFrames := by and_intros <;> decide

theorem inv_assertedB2B : Inv { s0B2B with act := true } := by and_intros <;> decide

/-- A frame to PLL2 between rising and falling edge 8. -/
def pllMatched : State := { asserted with sckQ := true, n := 16, hdr := 0x0C#8, sel := some 6 }

/-- The same frame after falling edge 8. -/
def pllSelected : State := { pllMatched with sckQ := false, lcs := true }

/-- The same frame after falling edge L. -/
def pllEnded : State := { pllMatched with sckQ := false, n := 0 }

theorem inv_pllMatched : Inv pllMatched := by and_intros <;> decide

theorem inv_pllSelected : Inv pllSelected := by and_intros <;> decide

theorem inv_pllEnded : Inv pllEnded := by and_intros <;> decide

theorem witness_LocalSelectLinesDoNotGlitch :
    Inv groupTerminal ∧ (∃ t, applyEvent .sckFall groupTerminal = .next t ∧ extCs t 12 ≠ extCs groupTerminal 12) ∧
    groupTerminal.sel ≠ some 6 ∧ fanoutOf groupTerminal.cfg 6 = false ∧ extCs groupTerminal 12 = true ∧
    fanoutOf groupTerminal.cfg 12 = true ∧
    (Inv pllMatched ∧ (∃ t, applyEvent .sckFall pllMatched = .next t) ∧ pllMatched.n = pllMatched.cfg.dataW ∧
      pllMatched.sckQ = true ∧ pllMatched.sel = some 6 ∧ extCs pllMatched 6 = false) ∧
    (Inv pllSelected ∧ (∃ t, applyEvent (.sckRise true) pllSelected = .next t) ∧ pllSelected.act = true ∧
      pllSelected.sel = some 6 ∧ hasLink pllSelected.cfg 6 = true ∧ 0 < pllSelected.n ∧
      pllSelected.n = pllSelected.cfg.dataW ∧ pllSelected.sckQ = false) ∧
    (Inv pllEnded ∧ (∃ t, applyEvent .csDeassert pllEnded = .next t) ∧ pllEnded.n = 0 ∧ pllEnded.sckQ = false ∧
      pllEnded.sel = some 6) :=
  ⟨inv_groupTerminal, ⟨_, rfl, by decide⟩, by decide, by decide, by decide, by decide,
   ⟨inv_pllMatched, ⟨_, rfl⟩, by decide, by decide, by decide, by decide⟩,
   ⟨inv_pllSelected, ⟨_, rfl⟩, by decide, by decide, by decide, by decide, by decide, by decide⟩,
   ⟨inv_pllEnded, ⟨_, rfl⟩, by decide, by decide, by decide⟩⟩

theorem witness_SerialOutputHasOneDriver :
    (Inv groupTerminal ∧ extCs groupTerminal 12 = true) ∧ (Inv readingFirst ∧ readingFirst.sdoQ.isSome = true) :=
  ⟨⟨inv_groupTerminal, by decide⟩, ⟨inv_readingFirst, by decide⟩⟩

theorem witness_CounterCountsRisingEdges :
    ((∃ t, applyEvent (.sckRise true) (writing 1) = .next t) ∧ (writing 1).act = true ∧ 0 < (writing 1).n) ∧
    ((∃ t, applyEvent (.sckRise true) betweenFrames = .next t) ∧ betweenFrames.act = true ∧ betweenFrames.n = 0 ∧
      betweenFrames.cfg.backToBack = true) ∧
    ((∃ t, applyEvent (.sckRise true) (writing 0) = .next t) ∧ (writing 0).n = 0 ∧ (writing 0).cfg.backToBack = false) ∧
    (∃ t, applyEvent .csAssert s0 = .next t) ∧ (∃ t, applyEvent .csDeassert (writing 1) = .next t) ∧
    (∃ t, applyEvent .sckFall groupTerminal = .next t) :=
  ⟨⟨⟨_, rfl⟩, by decide, by decide⟩, ⟨⟨_, rfl⟩, by decide, by decide, by decide⟩, ⟨⟨_, rfl⟩, by decide, by decide⟩,
   ⟨_, rfl⟩, ⟨_, rfl⟩, ⟨_, rfl⟩⟩

theorem witness_ConfigurationNeverChanges : ∃ t, step (sending (msbFirst 24 0x01BEEF#24) s0) = .next t := ⟨_, rfl⟩

theorem witness_EveryPowerOnMeetsTheInvariant : powerOn boardConfig = .next State.reset := rfl

theorem witness_EveryStepKeepsTheInvariant :
    Inv { groupTerminal with pending := [.event .sckFall] } ∧
    ∃ t, step { groupTerminal with pending := [.event .sckFall] } = .next t := ⟨inv_groupTerminal, _, rfl⟩

theorem witness_EveryTransactionCompletes : s0.act = false := by decide

theorem witness_RegisterReadReturnsTheValue :
    s0.act = false ∧ admitted s0.cfg = true ∧ CanonicalTable s0.cfg ∧
    [Instr.regRd 0 0 0#32, .regRd 7 3 0xFFFF#32].map (fun i => (i.we, route s0.cfg i.addr)) =
      [(false, some 0), (false, some 3)] ∧
    kindOf s0.cfg 0 = some .register ∧ kindOf s0.cfg 3 = some .register :=
  ⟨by decide, by decide, witness_CanonicalTable.1, by decide, by decide, by decide⟩

theorem witness_RegisterWriteCommitsTheData :
    s0.act = false ∧ admitted s0.cfg = true ∧ CanonicalTable s0.cfg ∧
    [Instr.regWr 0 0 1#32, .regWr 7 2 0xFFFF#32, .regWr 0 3 0#32].map (fun i => (i.we, route s0.cfg i.addr)) =
      [(true, some 0), (true, some 2), (true, some 3)] ∧
    [0, 2, 3].map (kindOf s0.cfg) = [some .register, some .register, some .register] ∧
    [0, 2, 3].map (regKindOf s0.cfg) = [some .rw, some .ro, some .wo] :=
  ⟨by decide, by decide, witness_CanonicalTable.1, by decide, by decide, by decide⟩

theorem witness_PassThroughTransfersRelayTheData :
    (s0.act = false ∧ admitted s0.cfg = true ∧ CanonicalTable s0.cfg) ∧
    (s0Mezz.act = false ∧ admitted s0Mezz.cfg = true ∧ CanonicalTable s0Mezz.cfg ∧ s0Mezz.cfg.addrMap = .mezz) ∧
    [Instr.pllXfer 0 0 false 0#32, .pllXfer 7 3 true 0xFFFF#32, .attXfer 0 0 false 0#32, .attXfer 7 3 true 1#32].map
      (fun i => (route s0.cfg i.addr).bind (kindOf s0.cfg)) = List.replicate 4 (some .passThrough) ∧
    [Instr.mezXfer 0 0 false 0#32, .mezXfer 7 3 true 0xFFFF#32].map
      (fun i => (route s0Mezz.cfg i.addr).bind (kindOf s0Mezz.cfg)) = List.replicate 2 (some .passThrough) :=
  ⟨⟨by decide, by decide, witness_CanonicalTable.1⟩, ⟨by decide, by decide, witness_CanonicalTable.2, by decide⟩,
   by decide, by decide⟩

theorem witness_GroupTransferStrobesItsLine :
    s0.act = false ∧ admitted s0.cfg = true ∧ CanonicalTable s0.cfg ∧ s0.cfg.addrMap = .group ∧
    [Instr.grpXfer 0 0 false 0#32, .grpXfer 7 3 true 0xFFFF#32].map (fun i => route s0.cfg i.addr) = [some 12, some 12] ∧
    kindOf s0.cfg 12 = some .group :=
  ⟨by decide, by decide, witness_CanonicalTable.1, by decide, by decide, by decide⟩

theorem witness_UnmatchedFrameReachesNoEndpoint :
    (State.powerOnState (withBindings [reg 0x00 0x7F])).act = false ∧ admitted (withBindings [reg 0x00 0x7F]) = true ∧
    route (withBindings [reg 0x00 0x7F]) (Instr.pllXfer 0 1 true 7#32).addr = none := by decide

/-- A table of one RW binding at address 0x15, and its only register (R84). -/
def suppliedTable : Config := { withBindings [reg 0x15 0x7F] with backToBack := true }

theorem witness_WrittenValueIsReadBack :
    (s0.act = false ∧ admitted s0.cfg = true ∧ route s0.cfg (Instr.regWr 7 1 0xFFFF#32).addr = some 1 ∧
      route s0.cfg (Instr.regRd 0 1 0#32).addr = some 1 ∧ kindOf s0.cfg 1 = some .register ∧ regKindOf s0.cfg 1 = some .rw ∧
      dataFits s0.cfg 0xFFFF#32 = true) ∧
    ((State.powerOnState suppliedTable).act = false ∧ admitted suppliedTable = true ∧
      route suppliedTable (Instr.pllXfer 1 1 true 7#32).addr = some 0 ∧
      route suppliedTable (Instr.pllXfer 1 1 false 0#32).addr = some 0 ∧ kindOf suppliedTable 0 = some .register ∧
      regKindOf suppliedTable 0 = some .rw) := by decide

theorem witness_BackToBackReadSeesTheWrite :
    (let s : State := { s0B2B with act := true }
     s.act = true ∧ s.sckQ = false ∧ shiftInitial s ∧ s.cfg.backToBack = true ∧ admitted s.cfg = true ∧
     route s.cfg (Instr.regWr 0 0 0x0F0F#32).addr = some 0 ∧ route s.cfg (Instr.regRd 7 0 0#32).addr = some 0 ∧
     kindOf s.cfg 0 = some .register ∧ regKindOf s.cfg 0 = some .rw ∧ dataFits s.cfg 0x0F0F#32 = true) ∧
    (let s : State := { State.powerOnState suppliedTable with act := true }
     s.act = true ∧ s.sckQ = false ∧ shiftInitial s ∧ s.cfg.backToBack = true ∧ admitted s.cfg = true ∧
     route s.cfg (Instr.pllXfer 1 1 true 7#32).addr = some 0) := by decide

theorem inv_suppliedTable : Inv { State.powerOnState suppliedTable with act := true } := by and_intros <;> decide

theorem witness_FrameInsideAnAssertionHasTheSameEffect :
    (Inv betweenFrames ∧ betweenFrames.act = true ∧ betweenFrames.sckQ = false ∧ betweenFrames.cfg.backToBack = true ∧
      admitted betweenFrames.cfg = true ∧ betweenFrames.n = 0) ∧
    (let s : State := { s0B2B with act := true }
     Inv s ∧ s.act = true ∧ s.sckQ = false ∧ s.cfg.backToBack = true ∧ admitted s.cfg = true ∧ s.n = s.cfg.frameLen ∧
     [Instr.regRd 0 2 0#32, .pllXfer 0 2 false 0#32, .grpXfer 0 1 true 0#32].map (fun i => route s.cfg i.addr) =
       [some 2, some 6, some 12] ∧
     kindOf s.cfg 2 = some .register ∧ [6, 12].map (hasLink s.cfg) = [true, true]) ∧
    (let s : State := { State.powerOnState suppliedTable with act := true }
     Inv s ∧ s.act = true ∧ s.sckQ = false ∧ s.cfg.backToBack = true ∧ admitted s.cfg = true ∧ s.n = s.cfg.frameLen ∧
     route s.cfg (Instr.regRd 0 0 0#32).addr = none) :=
  ⟨⟨inv_betweenFrames, by decide, by decide, by decide, by decide, by decide⟩,
   ⟨inv_assertedB2B, by decide, by decide, by decide, by decide, by decide, by decide, by decide, by decide⟩,
   ⟨inv_suppliedTable, by decide, by decide, by decide, by decide, by decide, by decide⟩⟩

theorem witness_ShortFrameIsDropped :
    s0.act = false ∧ admitted s0.cfg = true ∧ ([] : List Bool).length < s0.cfg.frameLen ∧
    (List.replicate 23 true).length < s0.cfg.frameLen := by decide

theorem witness_ExtraClocksChangeNothing :
    s0.act = false ∧ admitted s0.cfg = true ∧ s0.cfg.backToBack = false ∧
    (List.replicate 24 true).length = s0.cfg.frameLen := by decide

theorem witness_IgnoredBitsHaveNoEffect :
    s0.act = false ∧ admitted s0.cfg = true ∧ CanonicalTable s0.cfg ∧ regKindOf s0.cfg (2#2).toNat = some .ro :=
  ⟨by decide, by decide, witness_CanonicalTable.1, by decide⟩

end Sys2Proof.Tests
end

section
/-! PROOFS. The statements of 10_state.md: the values at power-on, what changes the registers, the selection and the bit
counter, and the invariant that every step keeps. First the laws of the register file, of power-on and of one bus event that
they share. -/

namespace Sys2Proof.Machine

/-! ## The register file -/

/-- The register file holds values of the data width only (R8, R21). -/
abbrev RegsFit (c : Config) (regs : List (Nat × Data)) : Prop := ∀ p ∈ regs, dataFits c p.2 = true

theorem regGet_fits {c : Config} {regs : List (Nat × Data)} (h : RegsFit c regs) (e : Nat) :
    dataFits c (regGet regs e) = true := by
  induction regs with
  | nil => simp [regGet, dataFits_iff]
  | cons p rest ih =>
    obtain ⟨hp, hrest⟩ := List.forall_mem_cons.1 h
    by_cases hk : p.1 = e
    · simpa [regGet, hk] using hp
    · simpa [regGet, hk] using ih hrest

theorem regSet_fits {c : Config} {regs : List (Nat × Data)} {d : Data} (h : RegsFit c regs) (hd : dataFits c d = true)
    (e : Nat) : RegsFit c (regSet regs e d) := by
  intro p hp
  rcases mem_regSet hp with rfl | hp
  · exact hd
  · exact h p hp

/-- A commit to a binding without a stored value leaves the register file alone (R128, D36). -/
theorem committedRegs_of_not_stored {c : Config} {e : Nat} (h : ¬ (regKindOf c e = some .wo ∨ regKindOf c e = some .rw))
    (regs : List (Nat × Data)) (d : Data) : committedRegs c regs e d = regs := by
  unfold committedRegs
  split <;> simp_all

theorem committedRegs_fits {c : Config} {regs : List (Nat × Data)} {d : Data} (h : RegsFit c regs)
    (hd : dataFits c d = true) (e : Nat) : RegsFit c (committedRegs c regs e d) := by
  unfold committedRegs
  split
  · exact regSet_fits h hd e
  · exact regSet_fits h hd e
  · exact h
  · exact h

/-- What a read-request reads has the data width (R127). -/
theorem regRead_fits {s : State} (hN : s.cfg.dataW ≤ 32) (h : RegsFit s.cfg s.regs) (e : Nat) :
    dataFits s.cfg (regRead s e) = true := by
  rw [regRead_eq, readValueAt]
  split
  · exact regGet_fits h e
  · exact fitData_fits hN _

theorem initialRegs_fits {c : Config} (hN : c.dataW ≤ 32) (i : Nat) (bs : List Binding) :
    RegsFit c (initialRegs c.dataW i bs) := by
  induction bs generalizing i with
  | nil => simp [initialRegs]
  | cons b bs ih =>
    simp only [initialRegs]
    split
    · exact List.forall_mem_cons.2 ⟨fitData_fits hN _, ih (i + 1)⟩
    · exact ih (i + 1)

/-- Each stored register holds its reset value at power-on (R46). -/
theorem regGet_initialRegs (N : Nat) {i e : Nat} {bs : List Binding} {b : Binding} (hb : bs[e]? = some b)
    (hs : isStored b = true) : regGet (initialRegs N i bs) (i + e) = fitData N (b.regReset.getD 0#32) := by
  induction bs generalizing i e with
  | nil => simp at hb
  | cons x xs ih =>
    cases e with
    | zero =>
      obtain rfl : x = b := by simpa using hb
      simp [initialRegs, hs, regGet]
    | succ e =>
      have hrest := ih (i := i + 1) (e := e) (by simpa using hb)
      rw [Nat.add_assoc, Nat.add_comm 1 e] at hrest
      by_cases hx : isStored x = true
      · simpa [initialRegs, hx, regGet] using hrest
      · simpa [initialRegs, hx] using hrest

/-! ## Power-on and the frame reset -/

/-- Power-on builds a machine exactly under an admitted configuration (R115, R116). -/
theorem powerOn_next_iff {c : Config} {s : State} :
    powerOn c = .next s ↔ admitted c = true ∧ State.powerOnState c = s := by
  unfold powerOn admitted
  cases configError c <;> simp

/-- The frame reset makes the shift state frame-initial (R44, R92). -/
theorem shiftInitial_frameInit (s : State) : shiftInitial (frameInit s) := by and_intros <;> rfl

theorem shiftInitial_powerOnState (c : Config) : shiftInitial (State.powerOnState c) := by and_intros <;> rfl

/-- A frame-initial engine is in the ADDR phase (R25). -/
theorem dataW_lt_of_shiftInitial {s : State} (h : shiftInitial s) : s.cfg.dataW < s.n := by
  rw [h.1, Config.frameLen]
  omega

/-! ## What one bus event can change -/

theorem applyEvent_cfg {ev : Ev} {s t : State} (h : applyEvent ev s = .next t) : t.cfg = s.cfg := by
  cases applyEvent_cases h <;> rfl

/-- The two chip-select events end in the frame reset (R93, R94). -/
theorem shiftInitial_of_chipSelect {ev : Ev} {s t : State} (h : applyEvent ev s = .next t)
    (hev : ev = .csAssert ∨ ev = .csDeassert) : shiftInitial t := by
  rcases hev with rfl | rfl
  · cases applyEvent_cases h
    exact shiftInitial_frameInit s
  · cases applyEvent_cases h
    exact shiftInitial_frameInit s

/-- The register file changes only by a commit, on the terminal edge of a frame with `we = 1` to a Register binding (R97). -/
theorem applyEvent_regs {ev : Ev} {s t : State} (h : applyEvent ev s = .next t) :
    t.regs = s.regs ∨
    ∃ b e, ev = .sckRise b ∧ s.act = true ∧ s.n = 1 ∧ 0 < s.cfg.dataW ∧ headerWe s.hdr = true ∧ s.sel = some e ∧
      kindOf s.cfg e = some .register ∧ t.regs = committedRegs s.cfg s.regs e (shiftData s.cfg.dataW s.din b) := by
  cases applyEvent_cases h with
  | @riseTerminal _ _ b d ha _ hn hN hd =>
    subst hd
    rcases commitEffect_cases s (shiftData s.cfg.dataW s.din b) with ⟨e, hsel, hwe, hkind, heff⟩ | ⟨heff, -⟩
    · exact .inr ⟨b, e, rfl, ha, hn, hN, hwe, hsel, hkind, congrArg Prod.fst heff⟩
    · exact .inl (congrArg Prod.fst heff)
  | assert | deassert | riseIdle | riseAddr | riseRequest | riseData | riseRestart | riseExtra | fallQuiet | fallData
  | fallDone => exact .inl rfl

theorem applyEvent_regFileShape {ev : Ev} {s t : State} (h : applyEvent ev s = .next t) (hs : RegFileShape s) :
    RegFileShape t := by
  rw [RegFileShape, applyEvent_cfg h]
  rcases applyEvent_regs h with hregs | ⟨b, e, -, -, -, -, -, -, hkind, hregs⟩
  · rw [hregs, hs]
  · rw [hregs, committedRegs_keys _ hkind hs]

theorem applyEvent_regsFit {ev : Ev} {s t : State} (h : applyEvent ev s = .next t) (hN : s.cfg.dataW ≤ 32)
    (hs : RegsFit s.cfg s.regs) : RegsFit t.cfg t.regs := by
  rw [applyEvent_cfg h]
  rcases applyEvent_regs h with hregs | ⟨b, e, -, -, -, -, -, -, -, hregs⟩
  · rwa [hregs]
  · rw [hregs]
    exact committedRegs_fits hs (shiftData_fits hN _ _) e

/-- `reg_q[e]` of a listed binding: the stored value of a WO or RW register, nothing else (R39, R130). -/
theorem regQ_of_binding {s : State} {e : Nat} {b : Binding} (hb : s.cfg.bindings[e]? = some b) :
    regQ s e = if isStored b then some (regGet s.regs e) else none := by
  simp [regQ, hb]

/-! ## Latch lines -/

/-- Without a Group binding no frame ends in a strobe (R159). -/
theorem groupActive_of_no_group {s : State} (h : ∀ b ∈ s.cfg.bindings, b.kind ≠ .group) : groupActive s = false := by
  rw [Bool.eq_false_iff, Ne, groupActive_iff]
  rintro ⟨-, hsel⟩
  obtain ⟨e, -, he⟩ := (Option.any_eq_true _ _).1 hsel
  obtain ⟨b, hb, hkind⟩ := Option.map_eq_some_iff.1 (of_decide_eq_true he)
  exact h b (List.mem_of_getElem? hb) hkind

end Sys2Proof.Machine
end

section
/-! PROOFS. The invariant of Safety.lean, first phase by phase (R25): in each phase some clauses hold because they speak of
another phase, and the lemmas `inv_of_…` ask for the others only. Then every bus event keeps it, and so every step. -/

namespace Sys2Proof.Machine

/-! ## The invariant phase by phase -/

theorem inv_of_addrPhase {s : State} (hn : s.cfg.dataW < s.n) (hcount : CounterInRange s) (hidle : IdleIsInitial s)
    (hclear : AddrPhaseClear s) (hhdr : HeaderHoldsSampledBits s) (hfit : RegsFit s.cfg s.regs) (hshape : RegFileShape s)
    (hlatch : LatchLowInFrame s) (hgroup : NoGroupNoLatch s) : Inv s := by
  obtain ⟨hdin, hsel, hsout, hsdoQ, hlcs⟩ := hclear hn
  refine ⟨hcount, hidle, hclear, hhdr, ?selection, ?chain, ?link, ?output, ?readBit, ?select, ?notEarly, ?done,
    ⟨?din, ?sout, hfit⟩, hshape, hlatch, hgroup, ?index⟩
  case selection => intro h; omega
  case chain => simp [hsel, hsout]
  case link => simp [hlcs]
  case output => simp [hsdoQ]
  case readBit => rintro ⟨-, -, -, h⟩; omega
  case select => rintro ⟨-, -, h, -⟩; omega
  case notEarly => exact fun _ => hlcs
  case done => rintro ⟨-, -, h⟩; omega
  case din => simp [hdin, dataFits_iff]
  case sout => simp [hsout]
  case index => rintro ⟨h, -⟩; omega

theorem inv_of_shiftInitial {s : State} (h : shiftInitial s) (hfit : RegsFit s.cfg s.regs) (hshape : RegFileShape s)
    (hlatch : LatchLowInFrame s) (hgroup : NoGroupNoLatch s) : Inv s := by
  obtain ⟨hn, hhdr, hclear⟩ := h
  refine inv_of_addrPhase (dataW_lt_of_shiftInitial ⟨hn, hhdr, hclear⟩) (Nat.le_of_eq hn) (fun _ => ⟨hn, hhdr, hclear⟩)
    (fun _ => hclear) (fun _ => ?_) hfit hshape hlatch hgroup
  simp [hhdr]

theorem inv_of_dataPhase {s : State} (hact : s.act = true) (hpos : 0 < s.n) (hn : s.n ≤ s.cfg.dataW)
    (hselection : SelectionIsMatch s) (hchain : ChainLoadedForRegister s) (hlink : LocalSelectHasLink s)
    (houtput : OutputComesFromChain s) (hreadBit : NextReadBitReady s) (hselect : LocalSelectReady s)
    (hnotEarly : LocalSelectNotEarly s) (hfit : ValuesFit s) (hshape : RegFileShape s) (hlatch : s.latch = 0#4)
    (hindex : IndexIsCurrent s) : Inv s := by
  refine ⟨?count, ?idle, ?clear, ?header, hselection, hchain, hlink, houtput, hreadBit, hselect, hnotEarly, ?done, hfit,
    hshape, fun _ => hlatch, fun _ => hlatch, hindex⟩
  case count => rw [CounterInRange, Config.frameLen]; omega
  case idle => simp [hact]
  case clear => intro h; omega
  case header => intro h; omega
  case done => rintro ⟨-, -, h⟩; omega

theorem inv_of_donePhase {s : State} (hact : s.act = true) (hn : s.n = 0) (hN : 0 < s.cfg.dataW)
    (hselection : SelectionIsMatch s) (hchain : ChainLoadedForRegister s) (hlink : LocalSelectHasLink s)
    (houtput : OutputComesFromChain s) (hdone : DoneIsQuiet s) (hfit : ValuesFit s) (hshape : RegFileShape s)
    (hlatch : LatchLowInFrame s) (hgroup : NoGroupNoLatch s) (hindex : IndexIsCurrent s) : Inv s := by
  refine ⟨?count, ?idle, ?clear, ?header, hselection, hchain, hlink, houtput, ?readBit, ?select, ?notEarly, hdone, hfit,
    hshape, hlatch, hgroup, hindex⟩
  case count => simp [CounterInRange, hn]
  case idle => simp [hact]
  case clear => intro h; omega
  case header => intro h; omega
  case readBit => rintro ⟨-, -, h, -⟩; omega
  case select => rintro ⟨-, h, -⟩; omega
  case notEarly => rintro ⟨-, h⟩; omega

/-- In the ADDR phase nothing depends on the clock level. -/
theorem inv_withClockLevel {s : State} (h : Inv s) (hn : s.cfg.dataW < s.n) (sck : Bool) : Inv { s with sckQ := sck } := by
  obtain ⟨hcount, hidle, hclear, hhdr, -, -, -, -, -, -, -, -, ⟨-, -, hfit⟩, hshape, hlatch, hgroup, -⟩ := h
  exact inv_of_addrPhase hn hcount hidle hclear hhdr hfit hshape hlatch hgroup

theorem inv_powerOnState {c : Config} (hN : c.dataW ≤ 32) : Inv (State.powerOnState c) :=
  inv_of_shiftInitial (shiftInitial_powerOnState c) (initialRegs_fits hN 0 c.bindings) (initialRegs_keys _ 0 _)
    (fun _ => rfl) (fun _ => rfl)

/-! ## Every bus event keeps the invariant -/

/-- One more header bit keeps the header register within the bits sampled so far (R26, R95). -/
theorem shiftConcat_lt_two_pow {h : Header} {k : Nat} (hh : h.toNat < 2 ^ k) (b : Bool) :
    (h.shiftConcat b).toNat < 2 ^ (k + 1) := by
  have hb : b.toNat ≤ 1 := Bool.toNat_le b
  have hmod : (h.shiftConcat b).toNat ≤ 2 * h.toNat + b.toNat := by
    rw [shiftConcat_toNat]
    exact Nat.mod_le _ _
  rw [pow_succ]
  omega

/-- The read-request loads the chain exactly for a Register binding (R29, R96). -/
theorem loadedSout_isSome (s : State) (m : Option Nat) :
    (loadedSout s m).isSome = true ↔ m.any (fun e => kindOf s.cfg e = some .register) = true := by
  cases m with
  | none => simp [loadedSout]
  | some e => by_cases hk : kindOf s.cfg e = some .register <;> simp [loadedSout, hk]

theorem loadedSout_fits {s : State} (hN : s.cfg.dataW ≤ 32) (h : RegsFit s.cfg s.regs) (m : Option Nat) :
    (loadedSout s m).all (dataFits s.cfg) = true := by
  cases m with
  | none => simp [loadedSout]
  | some e => by_cases hk : kindOf s.cfg e = some .register <;> simp [loadedSout, hk, regRead_fits hN h]

/-- The read-request for a Group binding captures the frame's index (R96, R150). -/
theorem loadedIndex_of_group {c : Config} {m : Option Nat}
    (h : m.any (fun e => kindOf c e = some .group) = true) (old : BitVec 2) (a : Addr) :
    loadedIndex c old a m = addrIndex a := by
  obtain ⟨e, rfl, he⟩ := (Option.any_eq_true _ _).1 h
  simp [loadedIndex, of_decide_eq_true he]

/-- The local select after a falling edge of the DATA phase (R100, R136). -/
theorem lcs_or_selectsLink_iff {s : State} (hact : s.act = true) (hpos : 0 < s.n) (hn : s.n ≤ s.cfg.dataW)
    (hsck : s.sckQ = true) (hselect : LocalSelectReady s) (hnotEarly : LocalSelectNotEarly s) :
    (s.lcs || selectsLink s) = true ↔ selectsDevice s := by
  rw [Bool.or_eq_true, selectsLink_iff]
  by_cases hN : s.n = s.cfg.dataW
  · simp [hnotEarly ⟨hsck, hN⟩, hN]
  · simp [hselect ⟨hact, hpos, hn, .inr (by omega)⟩, hN]

/-- Every bus event keeps the invariant (R93 to R102). -/
theorem applyEvent_keeps_inv {ev : Ev} {s t : State} (hN : 1 ≤ s.cfg.dataW ∧ s.cfg.dataW ≤ 32)
    (h : applyEvent ev s = .next t) (hinv : Inv s) : Inv t := by
  obtain ⟨hcount, hidle, hclear, hhdr, hselection, hchain, hlink, houtput, hreadBit, hselect, hnotEarly, hdone,
    ⟨hdin, hsout, hfit⟩, hshape, hlatch, hgroup, hindex⟩ := id hinv
  have hfit' := applyEvent_regsFit h hN.2 hfit
  have hshape' := applyEvent_regFileShape h hshape
  cases applyEvent_cases h with
  | assert => exact inv_of_shiftInitial (shiftInitial_frameInit s) hfit' hshape' (fun _ => rfl) (fun _ => rfl)
  | riseRestart => exact inv_of_shiftInitial (shiftInitial_frameInit s) hfit' hshape' (fun _ => rfl) (fun _ => rfl)
  | deassert =>
    refine inv_of_shiftInitial (shiftInitial_frameInit s) hfit' hshape' (by simp [LatchLowInFrame]) fun hno => ?_
    simpa [groupActive_of_no_group (s := s) hno] using hgroup hno
  | riseIdle ha => exact inv_withClockLevel hinv (dataW_lt_of_shiftInitial (hidle ha)) true
  | fallQuiet _ hquiet =>
    refine inv_withClockLevel hinv ?_ false
    rcases hquiet with ha | ⟨-, hn⟩
    · exact dataW_lt_of_shiftInitial (hidle ha)
    · exact hn
  | @riseAddr _ _ b ha _ hn =>
    have hn' : s.cfg.dataW < s.n := by omega
    have hbits : s.cfg.frameLen - (s.n - 1) = s.cfg.frameLen - s.n + 1 := by
      rw [CounterInRange] at hcount
      omega
    refine inv_of_addrPhase (Nat.lt_sub_of_add_lt hn) ((Nat.sub_le _ _).trans hcount) (by simp [IdleIsInitial, ha])
      (fun _ => hclear hn') (fun _ => ?_) hfit' hshape' (fun _ => hlatch ⟨ha, .inl (by omega)⟩) hgroup
    simpa only [hbits] using shiftConcat_lt_two_pow (hhdr hn') b
  | riseRequest ha _ hn =>
    obtain ⟨hdin0, -, -, hsdoQ, hlcs⟩ := hclear (by omega)
    refine inv_of_dataPhase ha hN.1 (Nat.le_refl _) (fun _ => rfl) (loadedSout_isSome s _) (by simp [LocalSelectHasLink, hlcs])
      (by simp [OutputComesFromChain, hsdoQ]) (by simp [NextReadBitReady]) (by simp [LocalSelectReady]) (fun _ => hlcs)
      ⟨hdin, loadedSout_fits hN.2 hfit _, hfit⟩ hshape' (hlatch ⟨ha, .inl (by omega)⟩) ?_
    exact fun ⟨_, hg⟩ => loadedIndex_of_group hg _ _
  | riseData ha hsck hn hle =>
    refine inv_of_dataPhase ha (Nat.sub_pos_of_lt hn) ((Nat.sub_le _ _).trans hle) (fun _ => hselection hle) hchain hlink
      houtput (by simp [NextReadBitReady]) (fun _ => hselect ⟨ha, by omega, hle, .inl hsck⟩) ?_
      ⟨shiftData_fits hN.2 _ _, hsout, hfit⟩ hshape' (hlatch ⟨ha, .inl (by omega)⟩) (fun ⟨_, hg⟩ => hindex ⟨hle, hg⟩)
    rintro ⟨-, hlast⟩
    simp only at hlast
    omega
  | riseTerminal ha _ hn _ hd =>
    have hle : s.n ≤ s.cfg.dataW := by omega
    have hlatch0 : s.latch = 0#4 := hlatch ⟨ha, .inl (by omega)⟩
    exact inv_of_donePhase ha rfl hN.1 (fun _ => hselection hle) hchain hlink houtput (by simp [DoneIsQuiet])
      ⟨hd ▸ shiftData_fits hN.2 _ _, hsout, hfit'⟩ hshape' (fun _ => hlatch0) (fun _ => hlatch0)
      (fun ⟨_, hg⟩ => hindex ⟨hle, hg⟩)
  | riseExtra ha _ hn =>
    exact inv_of_donePhase ha hn hN.1 hselection hchain hlink houtput (by simp [DoneIsQuiet]) ⟨hdin, hsout, hfit⟩ hshape'
      hlatch hgroup hindex
  | fallData ha hsck hpos hle =>
    have hlcs := lcs_or_selectsLink_iff ha hpos hle hsck hselect hnotEarly
    exact inv_of_dataPhase ha hpos hle hselection hchain (fun hl => ⟨ha, hlcs.1 hl⟩) (by simp [OutputComesFromChain])
      (fun _ => rfl) (fun _ => hlcs) (by simp [LocalSelectNotEarly]) ⟨hdin, hsout, hfit⟩ hshape'
      (hlatch ⟨ha, .inl hpos⟩) hindex
  | fallDone ha _ hn =>
    refine inv_of_donePhase ha hn hN.1 hselection hchain (by simp [LocalSelectHasLink]) (by simp [OutputComesFromChain])
      (fun _ => ⟨rfl, rfl⟩) ⟨hdin, hsout, hfit⟩ hshape' (by simp [LatchLowInFrame, hn]) (fun hno => ?_) hindex
    simpa [groupActive_of_no_group (s := s) hno] using hgroup hno

/-! ## From events to steps -/

/-- What every bus event keeps, a run of bus events keeps. -/
theorem runEvents_keeps {P : State → Prop} (hev : ∀ (ev : Ev) (s t : State), applyEvent ev s = .next t → P s → P t)
    {evs : List Ev} {s t : State} (h : runEvents evs s = .next t) (hs : P s) : P t := by
  induction evs generalizing s with
  | nil =>
    cases h
    exact hs
  | cons ev evs ih =>
    rw [runEvents] at h
    split at h
    · exact ih h (hev ev s _ ‹_› hs)
    · cases h
    · cases h

/-- A sample applies a chip-select event and takes over the clock level, or applies a clock event, or changes nothing
(R106, R107). -/
theorem onClockEdge_cases {csPin sck sdi : Bool} {s t : State} (h : onClockEdge csPin sck sdi s = .next t) :
    (∃ ev u, (ev = .csAssert ∨ ev = .csDeassert) ∧ applyEvent ev s = .next u ∧ t = { u with sckQ := sck }) ∨
    (∃ ev, applyEvent ev s = .next t) ∨ t = s := by
  unfold onClockEdge at h
  split at h
  · refine .inl ⟨if csPin == s.cfg.csActiveLevel then .csAssert else .csDeassert, ?_⟩
    cases hu : applyEvent (if csPin == s.cfg.csActiveLevel then .csAssert else .csDeassert) s with
    | next u =>
      rw [hu] at h
      cases h
      exact ⟨u, ite_eq_or_eq _ _ _, rfl, rfl⟩
    | fault r => rw [hu] at h; cases h
    | refused r => rw [hu] at h; cases h
  · split at h
    · exact .inr (.inl ⟨_, h⟩)
    · cases h
      exact .inr (.inr rfl)

/-- The next state of a recorded sample (R106). -/
theorem recordSample_next {o : Host.Outcome State Fault Refusal} {t : State} (h : recordSample o = .next t) :
    ∃ u, o = .next u ∧ t = { u with sdoOut := u.sdoOut ++ [sdo u], draws := u.draws + 1 } := by
  cases o with
  | next u =>
    cases h
    exact ⟨u, rfl, rfl⟩
  | fault r => cases h
  | refused r => cases h

theorem runBurst_keeps_inv {bits : List Bool} {s t : State} (hN : 1 ≤ s.cfg.dataW ∧ s.cfg.dataW ≤ 32)
    (h : runBurst bits s = .next t) (hinv : Inv s) : Inv t := by
  refine (runEvents_keeps (P := fun u => u.cfg = s.cfg ∧ Inv u) ?_ h ⟨rfl, hinv⟩).2
  rintro ev u v hev ⟨hcfg, hu⟩
  exact ⟨(applyEvent_cfg hev).trans hcfg, applyEvent_keeps_inv (hcfg ▸ hN) hev hu⟩

theorem onClockEdge_keeps_inv {csPin sck sdi : Bool} {s t : State} (hN : 1 ≤ s.cfg.dataW ∧ s.cfg.dataW ≤ 32)
    (h : onClockEdge csPin sck sdi s = .next t) (hinv : Inv s) : Inv t := by
  rcases onClockEdge_cases h with ⟨ev, u, hcs, hev, rfl⟩ | ⟨ev, hev⟩ | rfl
  · exact inv_withClockLevel (applyEvent_keeps_inv hN hev hinv)
      (dataW_lt_of_shiftInitial (shiftInitial_of_chipSelect hev hcs)) sck
  · exact applyEvent_keeps_inv hN hev hinv
  · exact hinv

/-- Every input of the outside keeps the invariant, which speaks of no pinned level and of no record. -/
theorem applyInput_keeps_inv {x : Input} {s t : State} (hN : 1 ≤ s.cfg.dataW ∧ s.cfg.dataW ≤ 32)
    (h : applyInput x s = .next t) (hinv : Inv s) : Inv t := by
  cases x with
  | burst bits =>
    simp only [applyInput] at h
    split at h
    · exact runBurst_keeps_inv hN (exec_eq_runBurst _ s ▸ h) hinv
    · exact runBurst_keeps_inv hN h hinv
  | event ev => exact applyEvent_keeps_inv hN h hinv
  | sample csPin sck sdi =>
    obtain ⟨u, hu, rfl⟩ := recordSample_next h
    exact onClockEdge_keeps_inv (t := u) hN hu hinv
  | driveStatus e v =>
    cases h
    exact hinv
  | driveExtSdo e b =>
    cases h
    exact hinv

/-- A step runs under an admitted configuration, and is idle or takes the next input (R108, R116). -/
theorem step_cases {s t : State} (h : step s = .next t) :
    admitted s.cfg = true ∧
    (s.pending = [] ∧ t = s ∨
      ∃ x rest, s.pending = x :: rest ∧ applyInput x { s with pending := rest } = .next t) := by
  unfold step at h
  split at h
  · cases h
  · refine ⟨by simp [admitted, *], ?_⟩
    unfold takeInput at h
    split at h
    · cases h
      exact .inl ⟨‹_›, rfl⟩
    · exact .inr ⟨_, _, ‹_›, h⟩

end Sys2Proof.Machine
end

section
/-! PROOFS. The statements of 10_state.md settled. -/

namespace Sys2Proof.Machine

/-- Settles O43: every bus event keeps the invariant, and a step applies bus events and changes nothing else the invariant
speaks of, except the clock level a sample takes over after a frame reset. -/
theorem everyStepKeepsTheInvariant : Obligations.EveryStepKeepsTheInvariant := by
  intro s t hinv h
  obtain ⟨hadm, ⟨-, rfl⟩ | ⟨x, rest, -, hx⟩⟩ := step_cases h
  · exact hinv
  · exact applyInput_keeps_inv (s := { s with pending := rest }) (admitted_width hadm) hx hinv

/-- Settles O32: only a commit changes the register file, and only at the selected binding. -/
theorem registersChangeOnlyAtTheTerminalEdge : Obligations.RegistersChangeOnlyAtTheTerminalEdge := by
  intro s t ev h
  refine ⟨fun e hne => ?_, applyEvent_regFileShape h⟩
  rcases applyEvent_regs h with hregs | ⟨b, e', hev, ha, hn, hN, hwe, hsel, hkind, hregs⟩
  · exact absurd (congrArg (regGet · e) hregs) hne
  rw [hregs] at hne
  have he : e = e' := by
    by_contra he
    exact hne (regGet_committedRegs_other _ _ _ he)
  subst he
  have hstored : regKindOf s.cfg e = some .wo ∨ regKindOf s.cfg e = some .rw := by
    by_contra hstored
    exact hne (by rw [committedRegs_of_not_stored hstored])
  exact ⟨⟨b, hev⟩, ha, hn, hN, hwe, hsel, hkind, hstored⟩

/-- Settles O36: an event leaves the selection and the chain, or is the read-request edge, or ends in the frame reset. -/
theorem selectionAndChainAreFixedForTheFrame : Obligations.SelectionAndChainAreFixedForTheFrame := by
  intro s t ev h hne
  cases applyEvent_cases h with
  | assert | deassert | riseRestart => exact .inr (shiftInitial_frameInit s)
  | riseRequest ha _ hn => exact .inl ⟨_, rfl, ha, hn⟩
  | riseIdle | riseAddr | riseData | riseTerminal | riseExtra | fallQuiet | fallData | fallDone => simp at hne

/-- Settles O39: the counter after each of the things an event can do. -/
theorem counterCountsRisingEdges : Obligations.CounterCountsRisingEdges := by
  intro s t ev h
  cases applyEvent_cases h with
  | assert | deassert => exact ⟨by simp, fun _ => shiftInitial_frameInit s, by simp⟩
  | riseRestart ha _ hn hb => exact ⟨by simp [hn], fun _ => shiftInitial_frameInit s, by simp [ha, hb]⟩
  | riseIdle ha => exact ⟨by simp [ha], by simp [ha], fun _ => rfl⟩
  | riseExtra _ _ hn hb => exact ⟨by simp [hn], by simp [hb], fun _ => rfl⟩
  | fallQuiet | fallData | fallDone => exact ⟨by simp, by simp, fun _ => rfl⟩
  | riseAddr ha _ hn | riseRequest ha _ hn | riseData ha _ hn | riseTerminal ha _ hn =>
    have hpos : s.n ≠ 0 := by omega
    refine ⟨fun _ _ _ _ => ?_, by simp [hpos], by simp [ha, hpos]⟩
    simp only
    omega

/-- Settles O42: power-on is frame-initial, its registers fit and its latch lines are low. -/
theorem everyPowerOnMeetsTheInvariant : Obligations.EveryPowerOnMeetsTheInvariant := by
  intro c s h
  obtain ⟨hadm, rfl⟩ := powerOn_next_iff.1 h
  exact inv_powerOnState (admitted_width hadm).2

/-- Settles O56: `reg_q` reads the register file, which changes only on a commit edge (O32). -/
theorem registerOutputsFollowTheStoredValue : Obligations.RegisterOutputsFollowTheStoredValue := by
  intro s t ev e b h hb
  have hs := regQ_of_binding hb
  have ht : regQ t e = _ := regQ_of_binding ((applyEvent_cfg h).symm ▸ hb)
  refine ⟨fun hstored => by simp [hs, hstored], fun hstored => by simp [hs, hstored], fun hne => ?_⟩
  have hstored : isStored b = true := by
    by_contra hstored
    exact hne (by simp [hs, ht, hstored])
  have hreg : regGet t.regs e ≠ regGet s.regs e := by simpa [hs, ht, hstored] using hne
  obtain ⟨hev, ha, hn, -, hwe, hsel, -⟩ := (registersChangeOnlyAtTheTerminalEdge s t ev h).1 e hreg
  exact ⟨hev, ha, hn, hwe, hsel, hstored⟩

/-- Settles O1: the power-on state field by field; the registers by `regGet_initialRegs`. -/
theorem powerOnGivesEveryFieldItsResetValue : Obligations.PowerOnGivesEveryFieldItsResetValue := by
  intro c hadm
  refine ⟨_, powerOn_next_iff.2 ⟨hadm, rfl⟩, rfl, rfl, rfl, shiftInitial_powerOnState c, initialRegs_keys _ 0 _,
    fun e b v hb hstored hv => ?_, rfl, rfl⟩
  have hreg := regGet_initialRegs c.dataW (i := 0) hb hstored
  rwa [Nat.zero_add, hv] at hreg

/-- Settles O41: the reset state is a power-on state, under a width of 16. -/
theorem resetMeetsTheInvariant : Obligations.ResetMeetsTheInvariant :=
  inv_powerOnState (c := boardConfig) (by decide)

end Sys2Proof.Machine
end

section
/-! PROOFS. The statements of 20_memory.md: the address map of the canonical table, the constant configuration, what one
transaction writes and the next reads, and what a short frame leaves behind. First the laws they need. -/

namespace Sys2Proof.Machine

/-! ## The address map -/

/-- Routing depends on the patterns and masks of the table alone (R111, R112). -/
theorem route_congr {c c' : Config} (a : Addr)
    (h : c.bindings.map (fun b => (b.pattern, b.mask)) = c'.bindings.map (fun b => (b.pattern, b.mask))) :
    route c a = route c' a := by
  rw [route, matchesFrom_congr a 0 h, route]

/-- The fan-out flag, the register kinds and the reset values leave the rows' patterns and masks alone (R118). -/
theorem canonicalBindings_patterns (m : AddrMap) (g : Bool) (k : Fin 4 → Option RegKind) (v : Fin 4 → Option Data) :
    (canonicalBindings m g k v).map (fun b => (b.pattern, b.mask)) =
      (boardConfigWith m).bindings.map (fun b => (b.pattern, b.mask)) := by
  cases m <;> rfl

theorem canonicalBindings_kinds (m : AddrMap) (g : Bool) (k : Fin 4 → Option RegKind) (v : Fin 4 → Option Data) :
    (canonicalBindings m g k v).map Binding.kind = (boardConfigWith m).bindings.map Binding.kind := by
  cases m <;> rfl

theorem canonicalBindings_names (m : AddrMap) (g : Bool) (k : Fin 4 → Option RegKind) (v : Fin 4 → Option Data) :
    (canonicalBindings m g k v).map Binding.name = canonicalNames m := by
  cases m <;> rfl

/-- Every address of the canonical table selects the position its nibble names (R51): checked address by address. -/
theorem route_boardConfigWith (m : AddrMap) (a : Addr) : route (boardConfigWith m) a = some (canonicalPosition m a) := by
  cases m <;> (revert a; decide)

theorem kindOf_boardConfigWith (m : AddrMap) (a : Addr) :
    kindOf (boardConfigWith m) (canonicalPosition m a) = some (canonicalKind m a) := by
  cases m <;> (revert a; decide)

/-- The position depends on the nibble alone (R51). -/
theorem canonicalPosition_congr (m : AddrMap) {a a' : Addr} (h : addrNibble a' = addrNibble a) :
    canonicalPosition m a' = canonicalPosition m a := by
  cases m <;> simp [canonicalPosition, h]

theorem route_of_canonicalTable {c : Config} (hc : CanonicalTable c) (a : Addr) :
    route c a = some (canonicalPosition c.addrMap a) := by
  obtain ⟨g, k, v, hb⟩ := hc
  rw [route_congr a (hb ▸ canonicalBindings_patterns c.addrMap g k v), route_boardConfigWith]

theorem kindOf_of_canonicalTable {c : Config} (hc : CanonicalTable c) (a : Addr) :
    kindOf c (canonicalPosition c.addrMap a) = some (canonicalKind c.addrMap a) := by
  obtain ⟨g, k, v, hb⟩ := hc
  rw [← kindOf_boardConfigWith, kindOf, kindOf, ← List.getElem?_map, ← List.getElem?_map, hb, canonicalBindings_kinds]

/-! ## The configuration -/

theorem runEvents_cfg {evs : List Ev} {s t : State} (h : runEvents evs s = .next t) : t.cfg = s.cfg :=
  runEvents_keeps (P := fun u => u.cfg = s.cfg) (fun _ _ _ hev hu => (applyEvent_cfg hev).trans hu) h rfl

/-- No input of the outside changes the configuration (R68). -/
theorem applyInput_cfg {x : Input} {s t : State} (h : applyInput x s = .next t) : t.cfg = s.cfg := by
  cases x with
  | burst bits =>
    simp only [applyInput] at h
    split at h
    · exact runEvents_cfg (exec_eq_runBurst _ s ▸ h)
    · exact runEvents_cfg h
  | event ev => exact applyEvent_cfg h
  | sample csPin sck sdi =>
    obtain ⟨u, hu, rfl⟩ := recordSample_next h
    rcases onClockEdge_cases hu with ⟨ev, w, -, hev, rfl⟩ | ⟨ev, hev⟩ | rfl
    · exact applyEvent_cfg (t := w) hev
    · exact applyEvent_cfg (t := u) hev
    · rfl
  | driveStatus e v =>
    cases h
    rfl
  | driveExtSdo e b =>
    cases h
    rfl

/-! ## Transactions to a read/write register -/

/-- A read-request to a read/write register loads its stored value (R96, R127). -/
theorem loadedSout_of_rw {s : State} {e : Nat} (hk : kindOf s.cfg e = some .register) (hr : regKindOf s.cfg e = some .rw) :
    loadedSout s (some e) = some (regGet s.regs e) := by
  simp [loadedSout, hk, regRead, hr]

/-- A transaction with `we = 1` to a read/write register stores the `N` data bits sent (R97, R128). -/
theorem exec_writes_rw {s : State} {i : Instr} {e : Nat} (hact : s.act = false) (hN : 1 ≤ s.cfg.dataW ∧ s.cfg.dataW ≤ 32)
    (hwe : i.we = true) (hroute : route s.cfg i.addr = some e) (hk : kindOf s.cfg e = some .register)
    (hr : regKindOf s.cfg e = some .rw) :
    ∃ t, exec i s = .next t ∧ t.act = false ∧ t.cfg = s.cfg ∧ t.regs = regSet s.regs e (fitData s.cfg.dataW i.data) := by
  refine ⟨_, (exec_eq_xfer i s).trans (xfer_of_idle i.addr i.we i.data hact hN hroute rfl rfl), hact, rfl, ?_⟩
  simp [endRegs, hwe, hk, committedRegs, hr]

/-- A transaction with `we = 0` to a read/write register keeps the registers and returns the stored value, MSB first, after
`ANY` on the eight header edges (R75, R131, D6). -/
theorem exec_reads_rw {s : State} {j : Instr} {e : Nat} (hact : s.act = false) (hN : 1 ≤ s.cfg.dataW ∧ s.cfg.dataW ≤ 32)
    (hwe : j.we = false) (hroute : route s.cfg j.addr = some e) (hk : kindOf s.cfg e = some .register)
    (hr : regKindOf s.cfg e = some .rw) :
    ∃ u, exec j s = .next u ∧ u.regs = s.regs ∧
      u.sdoSeen = s.sdoSeen ++ List.replicate 8 none ++ (msbFirst s.cfg.dataW (regGet s.regs e)).map some := by
  have hlink : linkOf s.cfg (some e) = false := by simp [linkOf, not_hasLink_of_register hk]
  refine ⟨_, (exec_eq_xfer j s).trans
    (xfer_of_idle j.addr j.we j.data hact hN hroute rfl
      (loadedSout_of_rw (s := { s with draws := s.draws + 7 }) hk hr)), ?_, ?_⟩
  · simp [endRegs, hwe]
  · simp only [seenBits_chain _ _ _ hlink]

/-! ## Short frames -/

/-- A frame that started in `s` has sampled `k` bits and can still be dropped: nothing but read-requests was recorded, no
register was written and no latch line is high. -/
structure Sampled (s : State) (k : Nat) (u : State) : Prop where
  cfg     : u.cfg = s.cfg
  act     : u.act = true
  count   : u.n + k = s.cfg.frameLen
  regs    : u.regs = s.regs
  latch   : u.latch = 0#4
  history : ∃ new, u.history = s.history ++ new ∧ ∀ x ∈ new, ∃ a we m, x = .readRequest a we m

theorem sampled_opened (s : State) : Sampled s 0 (opened s) :=
  ⟨rfl, rfl, rfl, rfl, rfl, [], (List.append_nil _).symm, by simp⟩

/-- A rising edge short of the last samples one bit more (R95, R96, R97). -/
theorem Sampled.rise {s u v : State} {k : Nat} {b : Bool} (h : Sampled s k u) (hk : k + 1 < s.cfg.frameLen)
    (hev : applyEvent (.sckRise b) u = .next v) : Sampled s (k + 1) v ∧ v.sckQ = true := by
  obtain ⟨hcfg, hact, hcount, hregs, hlatch, new, hnew, hreq⟩ := h
  cases applyEvent_cases hev with
  | riseIdle ha => simp [hact] at ha
  | riseAddr | riseData =>
    exact ⟨⟨hcfg, hact, by simp only; omega, hregs, hlatch, new, hnew, hreq⟩, rfl⟩
  | @riseRequest _ _ _ hdr _ _ hn =>
    refine ⟨⟨hcfg, hact, by simp only; omega, hregs, hlatch,
      new ++ [.readRequest (headerAddr hdr) (headerWe hdr) (route u.cfg (headerAddr hdr))], ?_, ?_⟩, rfl⟩
    · simp [hnew]
    · intro x hx
      rcases List.mem_append.1 hx with hx | hx
      · exact hreq x hx
      · exact ⟨_, _, _, List.mem_singleton.1 hx⟩
  | riseTerminal _ _ hn | riseRestart _ _ hn | riseExtra _ _ hn => omega

/-- A falling edge short of the last bit samples nothing and ends nothing (R99, R100). -/
theorem Sampled.fall {s u v : State} {k : Nat} (h : Sampled s k u) (hk : k < s.cfg.frameLen)
    (hev : applyEvent .sckFall u = .next v) : Sampled s k v ∧ v.sckQ = false := by
  obtain ⟨hcfg, hact, hcount, hregs, hlatch, hhist⟩ := h
  cases applyEvent_cases hev with
  | fallQuiet | fallData => exact ⟨⟨hcfg, hact, hcount, hregs, hlatch, hhist⟩, rfl⟩
  | fallDone _ _ hn => omega

/-- The clocks of a short frame sample its bits. -/
theorem Sampled.runClocks {s u : State} {k : Nat} (bits : List Bool) (h : Sampled s k u) (hsck : u.sckQ = false)
    (hk : k + bits.length < s.cfg.frameLen) :
    ∃ v, runEvents (clocks bits) u = .next v ∧ Sampled s (k + bits.length) v ∧ v.sckQ = false := by
  induction bits generalizing k u with
  | nil => exact ⟨u, rfl, h, hsck⟩
  | cons b bs ih =>
    rw [List.length_cons] at hk
    have hrise := applyEvent_of_legal (ev := .sckRise b) (s := u) (by simp [legal, hsck])
    obtain ⟨h1, hsck1⟩ := h.rise (by omega) hrise
    have hfall := applyEvent_of_legal (ev := .sckFall) (by rw [legal, hsck1])
    obtain ⟨h2, hsck2⟩ := h1.fall (by omega) hfall
    obtain ⟨v, hv, h3, hsck3⟩ := ih h2 hsck2 (by omega)
    refine ⟨v, ?_, ?_, hsck3⟩
    · simp only [clocks, runEvents, hrise, hfall, hv]
    · rwa [List.length_cons, Nat.add_comm bs.length 1, ← Nat.add_assoc]

/-- The deassertion that ends a short frame resets it and records no more than the abort (R94, R102). -/
theorem Sampled.deassert {s u v : State} {k : Nat} (h : Sampled s k u) (hk : k < s.cfg.frameLen)
    (hev : applyEvent .csDeassert u = .next v) :
    v.act = false ∧ v.sckQ = u.sckQ ∧ v.regs = s.regs ∧ v.latch = 0#4 ∧
      ∃ new, v.history = s.history ++ new ∧ (∀ x ∈ new, (∃ a we m, x = .readRequest a we m) ∨ x = .frameAborted k) ∧
        (0 < k → .frameAborted k ∈ new) := by
  obtain ⟨hcfg, hact, hcount, hregs, hlatch, new, hnew, hreq⟩ := h
  cases applyEvent_cases hev with
  | deassert =>
    have hn : u.n ≠ 0 := by omega
    have habort : 0 < u.n ∧ u.n < s.cfg.frameLen ↔ 0 < k := by omega
    have hsampled : s.cfg.frameLen - u.n = k := by omega
    refine ⟨rfl, rfl, hregs, by simp [hn, hlatch], new ++ if 0 < k then [.frameAborted k] else [],
      by simp [hn, hcfg, habort, hsampled, hnew], fun x hx => ?_, fun hpos => by simp [hpos]⟩
    rcases List.mem_append.1 hx with hx | hx
    · exact .inl (hreq x hx)
    · exact .inr (List.mem_singleton.1 (List.mem_ite_nil_right.1 hx).2)

end Sys2Proof.Machine
end

section
/-! PROOFS. The statements of 20_memory.md settled. -/

namespace Sys2Proof.Machine

/-- Settles O9: the table routes as the board's does, whose rows are named by the nibble. -/
theorem canonicalTableDecodesTheLowNibble : Obligations.CanonicalTableDecodesTheLowNibble := by
  intro c hc a
  refine ⟨route_of_canonicalTable hc a, kindOf_of_canonicalTable hc a, ?_, fun a' ha => ?_⟩
  · obtain ⟨g, k, v, hb⟩ := hc
    rw [← List.getElem?_map, hb, canonicalBindings_names]
  · rw [route_of_canonicalTable hc, route_of_canonicalTable hc, canonicalPosition_congr _ ha]

/-- Settles O40: a step is idle or takes one input, and no input changes the configuration. -/
theorem configurationNeverChanges : Obligations.ConfigurationNeverChanges := by
  intro s t h
  obtain ⟨-, ⟨-, rfl⟩ | ⟨x, rest, -, hx⟩⟩ := step_cases h
  · rfl
  · exact applyInput_cfg (s := { s with pending := rest }) hx

/-- Settles O50: the first transaction stores the value, the second loads it into the chain and shifts it out. -/
theorem writtenValueIsReadBack : Obligations.WrittenValueIsReadBack := by
  rintro s i j v e hact hadm hwi hwj rfl hi hj hk hr
  have hN := admitted_width hadm
  obtain ⟨t, ht, htact, htcfg, htregs⟩ := exec_writes_rw hact hN hwi hi hk hr
  obtain ⟨u, hu, huregs, huseen⟩ := exec_reads_rw (s := t) (j := j) (e := e) htact (htcfg ▸ hN) hwj (htcfg ▸ hj)
    (htcfg ▸ hk) (htcfg ▸ hr)
  have hread : regGet t.regs e = fitData s.cfg.dataW i.data := by rw [htregs, regGet_regSet_same]
  rw [hread, htcfg] at huseen
  exact ⟨fitData_of_fits hN.2, t, u, ht, hu, huseen, huregs ▸ hread⟩

/-- Settles O53: the bits of a short frame are sampled (`Sampled.runClocks`), and the deassertion drops them. -/
theorem shortFrameIsDropped : Obligations.ShortFrameIsDropped := by
  intro s bits hact _ hlen
  obtain ⟨u, hclocks, hu, hsck⟩ := (sampled_opened s).runClocks bits rfl (by omega)
  rw [Nat.zero_add] at hu
  have hend := applyEvent_of_legal (ev := .csDeassert) (s := u) hu.act
  obtain ⟨htact, htsck, htregs, htlatch, new, hnew, hrecords, habort⟩ := hu.deassert hlen hend
  refine ⟨_, ?_, (applyEvent_cfg hend).trans hu.cfg, htact, htsck.trans hsck, shiftInitial_of_chipSelect hend (.inr rfl),
    htregs, htlatch, new, hnew, fun e v hx => ?_, fun i hx => ?_, fun a we d hx => ?_,
    fun hne => habort (List.length_pos_iff.2 hne)⟩
  · rw [runBurst, burstEvents, List.append_assoc, runEvents_leadIn _ hact, runEvents_append_of_next _ hclocks]
    simp only [leadOut, hact, Bool.false_eq_true, if_false, runEvents, hend]
  · simpa using hrecords _ hx
  · simpa using hrecords _ hx
  · simpa using hrecords _ hx

/-- Settles O17: the decoder's two length tests. -/
theorem exactlyTheFullLengthDecodes : Obligations.ExactlyTheFullLengthDecodes := by
  intro c bits
  refine ⟨fun h => ?_, fun h => ?_, fun h => ?_⟩
  · rw [decode, if_neg (by omega), if_neg (by omega)]
    exact ⟨_, rfl⟩
  · rw [decode, if_pos h]
  · rw [decode, if_neg (by omega), if_pos h]

end Sys2Proof.Machine
end

section
/-! PROOFS. Laws of the encoding (R70 to R82): the bits of a frame by position, the rows of the decoder, and that bits in wire
order and the numbers they stand for determine each other. -/

namespace Sys2Proof

/-! ## Bits in wire order -/

theorem msbFirst_getElem? {w : Nat} (v : BitVec w) {n k : Nat} (hk : k < n) :
    (msbFirst n v)[k]? = some (v.getLsbD (n - 1 - k)) := by
  induction n generalizing k with
  | zero => omega
  | succ n ih =>
    cases k with
    | zero => rfl
    | succ k =>
      rw [msbFirst, List.getElem?_cons_succ, ih (by omega)]
      congr 2
      omega

/-- The first eight bits of a frame are its header's (R70, R72). -/
theorem frameBits_getElem?_header (N : Nat) (a : Addr) (we : Bool) (d : Data) {k : Nat} (hk : k < 8) :
    (frameBits N a we d)[k]? = some ((headerOf a we).getLsbD (7 - k)) := by
  rw [frameBits, List.getElem?_append_left (by simpa using hk), msbFirst_getElem? _ hk]

/-- The bits after the header are the data's (R70). -/
theorem frameBits_getElem?_data (N : Nat) (a : Addr) (we : Bool) (d : Data) {k : Nat} (hk : k < N) :
    (frameBits N a we d)[8 + k]? = some (d.getLsbD (N - 1 - k)) := by
  rw [frameBits, List.getElem?_append_right (by simp), msbFirst_length, Nat.add_sub_cancel_left, msbFirst_getElem? _ hk]

/-- The value of bits in wire order, as Mathlib's value of a list of binary digits. -/
theorem ofMsbFirst_eq_ofDigits (bits : List Bool) :
    ofMsbFirst bits = Nat.ofDigits 2 (bits.reverse.map Bool.toNat) := by
  induction bits using List.reverseRecOn with
  | nil => rfl
  | append_singleton bits b ih =>
    have hlast : ofMsbFirst (bits ++ [b]) = b.toNat + 2 * ofMsbFirst bits := by
      simp [ofMsbFirst, Nat.add_comm]
    rw [hlast, ih, List.reverse_append, List.reverse_singleton, List.singleton_append, List.map_cons, Nat.ofDigits_cons]

theorem lt_two_of_mem_map_toNat {bits : List Bool} {k : Nat} (h : k ∈ bits.map Bool.toNat) : k < 2 := by
  obtain ⟨b, -, rfl⟩ := List.mem_map.1 h
  exact b.toNat_lt

theorem ofMsbFirst_lt (bits : List Bool) : ofMsbFirst bits < 2 ^ bits.length := by
  have h := Nat.ofDigits_lt_base_pow_length (b := 2) (l := bits.reverse.map Bool.toNat) (by decide)
    fun _ => lt_two_of_mem_map_toNat
  simpa [ofMsbFirst_eq_ofDigits] using h

/-- Two lists of one length that stand for one number are equal. -/
theorem eq_of_ofMsbFirst_eq {bits bits' : List Bool} (hlen : bits.length = bits'.length)
    (h : ofMsbFirst bits = ofMsbFirst bits') : bits = bits' := by
  rw [ofMsbFirst_eq_ofDigits, ofMsbFirst_eq_ofDigits] at h
  have hdigits := Nat.ofDigits_inj_of_len_eq (by decide) (by simpa using hlen) (fun _ => lt_two_of_mem_map_toNat)
    (fun _ => lt_two_of_mem_map_toNat) h
  exact List.reverse_injective (List.map_injective_iff.2 (by decide) hdigits)

/-- Writing out the number that bits stand for gives the bits back. -/
theorem msbFirst_ofMsbFirst {w : Nat} {bits : List Bool} (hw : bits.length ≤ w) :
    msbFirst bits.length (BitVec.ofNat w (ofMsbFirst bits)) = bits := by
  apply eq_of_ofMsbFirst_eq (msbFirst_length _ _)
  have hlt := ofMsbFirst_lt bits
  rw [ofMsbFirst_msbFirst, BitVec.toNat_ofNat, Nat.mod_eq_of_lt (hlt.trans_le (Nat.pow_le_pow_right (by decide) hw)),
    Nat.mod_eq_of_lt hlt]

/-! ## Headers -/

/-- The header, `{addr, we}`, as a number (R72). -/
theorem headerOf_toNat (a : Addr) (we : Bool) : (headerOf a we).toNat = 2 * a.toNat + we.toNat := by
  revert a we; decide

@[simp] theorem headerOf_getElem_zero (a : Addr) (we : Bool) : (headerOf a we)[0] = we := Machine.headerWe_headerOf a we

theorem headerOf_getLsbD_succ (a : Addr) (we : Bool) (k : Nat) : (headerOf a we).getLsbD (k + 1) = a.getLsbD k := by
  rw [BitVec.getLsbD, headerOf_toNat, Nat.testBit_succ, BitVec.getLsbD]
  congr 1
  have := Bool.toNat_le we
  omega

/-- Every header is made of `addr[6:4]`, `addr[3:2]`, `addr[1:0]` and `we` (R72, R73). -/
theorem exists_headerOf (h : Header) : ∃ hi region sub we, h = headerOf (addrOf hi region sub) we :=
  ⟨h.extractLsb' 5 3, h.extractLsb' 3 2, h.extractLsb' 1 2, h.getLsbD 0, by revert h; decide⟩

@[simp] theorem headerOf_hi (hi : BitVec 3) (region sub : BitVec 2) (we : Bool) :
    (headerOf (addrOf hi region sub) we).extractLsb' 5 3 = hi := by
  revert hi region sub we; decide

@[simp] theorem headerOf_region (hi : BitVec 3) (region sub : BitVec 2) (we : Bool) :
    (headerOf (addrOf hi region sub) we).extractLsb' 3 2 = region := by
  revert hi region sub we; decide

@[simp] theorem headerOf_sub (hi : BitVec 3) (region sub : BitVec 2) (we : Bool) :
    (headerOf (addrOf hi region sub) we).extractLsb' 1 2 = sub := by
  revert hi region sub we; decide

/-- The mask of the rows of R80 that leave `we` open keeps `addr[3:2]`. -/
theorem headerOf_and_regionMask (hi : BitVec 3) (region sub : BitVec 2) (we : Bool) :
    headerOf (addrOf hi region sub) we &&& 0x18#8 = headerOf (addrOf 0 region 0) false := by
  revert hi region sub we; decide

/-- The mask of the two register rows of R80 keeps `addr[3:2]` and `we`. -/
theorem headerOf_and_registerMask (hi : BitVec 3) (region sub : BitVec 2) (we : Bool) :
    headerOf (addrOf hi region sub) we &&& 0x19#8 = headerOf (addrOf 0 region 0) we := by
  revert hi region sub we; decide

theorem region_cases (region : BitVec 2) : region = 0b00#2 ∨ region = 0b01#2 ∨ region = 0b10#2 ∨ region = 0b11#2 := by
  revert region; decide

/-! ## The decoder row by row -/

theorem decodeHeader_register (m : AddrMap) (hi : BitVec 3) (r : BitVec 2) (we : Bool) (d : Data) :
    decodeHeader m (headerOf (addrOf hi 0b00#2 r) we) d = if we then .regWr hi r d else .regRd hi r d := by
  simp [decodeHeader]

theorem decodeHeader_pll (m : AddrMap) (hi : BitVec 3) (x : BitVec 2) (we : Bool) (d : Data) :
    decodeHeader m (headerOf (addrOf hi 0b01#2 x) we) d = .pllXfer hi x we d := by
  simp [decodeHeader]

theorem decodeHeader_att (m : AddrMap) (hi : BitVec 3) (x : BitVec 2) (we : Bool) (d : Data) :
    decodeHeader m (headerOf (addrOf hi 0b10#2 x) we) d = .attXfer hi x we d := by
  simp [decodeHeader]

theorem decodeHeader_grp (hi : BitVec 3) (x : BitVec 2) (we : Bool) (d : Data) :
    decodeHeader .group (headerOf (addrOf hi 0b11#2 x) we) d = .grpXfer hi x we d := by
  simp [decodeHeader]

theorem decodeHeader_mez (hi : BitVec 3) (x : BitVec 2) (we : Bool) (d : Data) :
    decodeHeader .mezz (headerOf (addrOf hi 0b11#2 x) we) d = .mezXfer hi x we d := by
  simp [decodeHeader]

/-- The decoder's row has the header it was read from, carries the data, and exists under the address map (R80, R81). -/
theorem decodeHeader_spec (c : Config) (h : Header) (d : Data) :
    headerOf (decodeHeader c.addrMap h d).addr (decodeHeader c.addrMap h d).we = h ∧
      (decodeHeader c.addrMap h d).data = d ∧ (decodeHeader c.addrMap h d).wellFormed c = dataFits c d := by
  obtain ⟨hi, region, sub, we, rfl⟩ := exists_headerOf h
  rcases region_cases region with rfl | rfl | rfl | rfl
  · rw [decodeHeader_register]
    cases we <;> exact ⟨rfl, rfl, rfl⟩
  · rw [decodeHeader_pll]
    exact ⟨rfl, rfl, rfl⟩
  · rw [decodeHeader_att]
    exact ⟨rfl, rfl, rfl⟩
  · cases hm : c.addrMap with
    | group =>
      rw [decodeHeader_grp]
      exact ⟨rfl, rfl, by simp [Instr.wellFormed, hm]⟩
    | mezz =>
      rw [decodeHeader_mez]
      exact ⟨rfl, rfl, by simp [Instr.wellFormed, hm]⟩

/-- The header of a well-formed transaction decodes to its row (R80, R81). -/
theorem decodeHeader_of_wellFormed {c : Config} {i : Instr} (h : i.wellFormed c = true) :
    decodeHeader c.addrMap (headerOf i.addr i.we) i.data = i := by
  cases i with
  | regRd hi r d => exact decodeHeader_register c.addrMap hi r false d
  | regWr hi r d => exact decodeHeader_register c.addrMap hi r true d
  | pllXfer hi x we d => exact decodeHeader_pll c.addrMap hi x we d
  | attXfer hi x we d => exact decodeHeader_att c.addrMap hi x we d
  | grpXfer hi x we d =>
    obtain ⟨-, hm⟩ : dataFits c d = true ∧ c.addrMap = .group := by simpa [Instr.wellFormed] using h
    rw [hm]
    exact decodeHeader_grp hi x we d
  | mezXfer hi x we d =>
    obtain ⟨-, hm⟩ : dataFits c d = true ∧ c.addrMap = .mezz := by simpa [Instr.wellFormed] using h
    rw [hm]
    exact decodeHeader_mez hi x we d

theorem dataFits_of_wellFormed {c : Config} {i : Instr} (h : i.wellFormed c = true) : dataFits c i.data = true := by
  cases i with
  | regRd | regWr | pllXfer | attXfer => exact h
  | grpXfer | mezXfer => exact (Bool.and_eq_true_iff.1 h).1

/-! ## Whole frames -/

/-- The decoder reads a frame's header and its data cut to the data width (R70, R81). -/
theorem decode_frameBits {c : Config} (hN : c.dataW ≤ 32) (a : Addr) (we : Bool) (d : Data) :
    decode c (frameBits c.dataW a we d) = .ok (decodeHeader c.addrMap (headerOf a we) (fitData c.dataW d)) := by
  have hhdr : BitVec.ofNat 8 (ofMsbFirst ((frameBits c.dataW a we d).take 8)) = headerOf a we := by
    rw [frameBits, List.take_left' (msbFirst_length _ _), ofMsbFirst_msbFirst, Nat.mod_eq_of_lt (headerOf a we).isLt,
      BitVec.ofNat_toNat, BitVec.setWidth_eq]
  have hdata : BitVec.ofNat 32 (ofMsbFirst ((frameBits c.dataW a we d).drop 8)) = fitData c.dataW d := by
    rw [frameBits, List.drop_left' (msbFirst_length _ _), ofMsbFirst_msbFirst, ← fitData_toNat hN,
      BitVec.ofNat_toNat, BitVec.setWidth_eq]
  have hlen : (frameBits c.dataW a we d).length = c.frameLen := frameBits_length _ _ _ _
  rw [decode, if_neg (by omega), if_neg (by omega), hhdr, hdata]

/-- What decodes has the length of a frame, and is read as its header and its data (R57, R81). -/
theorem decode_ok {c : Config} {bits : List Bool} {i : Instr} (h : decode c bits = .ok i) :
    bits.length = 8 + c.dataW ∧
      i = decodeHeader c.addrMap (BitVec.ofNat 8 (ofMsbFirst (bits.take 8))) (BitVec.ofNat 32 (ofMsbFirst (bits.drop 8))) := by
  unfold decode at h
  split_ifs at h with hshort hlong
  cases h
  exact ⟨Nat.le_antisymm (Nat.not_lt.1 hlong) (Nat.not_lt.1 hshort), rfl⟩

/-- The frame word is the header followed by the data (R71, R72). -/
theorem frameWord_eq (c : Config) (i : Instr) :
    frameWord c i = 2 ^ c.dataW * (headerOf i.addr i.we).toNat + i.data.toNat := by
  rw [frameWord, headerOf_toNat]
  ring

end Sys2Proof
end

section
/-! PROOFS. The statements of 30_encoding.md about frames and the decoder settled. -/

namespace Sys2Proof.Machine

/-- Settles O15: the decoder reads back header and data (`decode_frameBits`), and the header names the row. -/
theorem decodeInvertsEncode : Obligations.DecodeInvertsEncode := by
  intro c i hN hwf
  rw [encode, decode_frameBits hN, fitData_of_fits hN (dataFits_of_wellFormed hwf), decodeHeader_of_wellFormed hwf]

/-- Settles O11: the header's bits, then the data's. -/
theorem frameBitsStandInTheOrderOfTheFormat : Obligations.FrameBitsStandInTheOrderOfTheFormat := by
  intro c i
  refine ⟨encode_length c i, fun k hk hk7 => ?_, ?_, fun k hk hkL => ?_⟩
  · rw [encode, frameBits_getElem?_header _ _ _ _ (by omega), show 7 - (k - 1) = 7 - k + 1 by omega,
      headerOf_getLsbD_succ]
  · exact (frameBits_getElem?_header _ _ _ _ (by decide)).trans (congrArg some (headerWe_headerOf _ _))
  · rw [encode, show k - 1 = 8 + (k - 9) by omega, frameBits_getElem?_data _ _ _ _ (by omega)]
    congr 2
    omega

/-- Settles O12: the frame word is `2 ^ N` times the header, plus the data, which is below `2 ^ N`. -/
theorem wireBitsAreTheFrameWordsBits : Obligations.WireBitsAreTheFrameWordsBits := by
  intro c i hfits k hk hkL
  rw [Config.frameLen] at hkL ⊢
  rw [frameWord_eq, Nat.testBit_two_pow_mul_add _ ((dataFits_iff c i.data).1 hfits), encode]
  by_cases hk8 : k ≤ 8
  · rw [frameBits_getElem?_header _ _ _ _ (by omega), if_neg (by omega), BitVec.getLsbD]
    congr 2
    omega
  · rw [show k - 1 = 8 + (k - 9) by omega, frameBits_getElem?_data _ _ _ _ (by omega), if_pos (by omega), BitVec.getLsbD]
    congr 2
    omega

/-- Settles O14: `addr[3:2]`, and for the two register rows `we`, say which value the masked header has. -/
theorem everyHeaderHasExactlyOneRow : Obligations.EveryHeaderHasExactlyOneRow := by
  intro m h d
  obtain ⟨hi, region, sub, we, rfl⟩ := exists_headerOf h
  simp only [opRows, List.filter, headerOf_and_regionMask, headerOf_and_registerMask]
  rcases region_cases region with rfl | rfl | rfl | rfl
  · rw [decodeHeader_register]
    cases we <;> exact ⟨_, rfl, rfl⟩
  · rw [decodeHeader_pll]
    cases we <;> exact ⟨_, rfl, rfl⟩
  · rw [decodeHeader_att]
    cases we <;> exact ⟨_, rfl, rfl⟩
  · cases m with
    | group =>
      rw [decodeHeader_grp]
      cases we <;> exact ⟨_, rfl, rfl⟩
    | mezz =>
      rw [decodeHeader_mez]
      cases we <;> exact ⟨_, rfl, rfl⟩

/-- Settles O16: the decoded row has the header and the data that were read, and bits and numbers determine each other. -/
theorem encodeInvertsDecode : Obligations.EncodeInvertsDecode := by
  intro c bits i hN h
  obtain ⟨hlen, rfl⟩ := decode_ok h
  obtain ⟨hheader, hdata, hwf⟩ := decodeHeader_spec c (BitVec.ofNat 8 (ofMsbFirst (bits.take 8)))
    (BitVec.ofNat 32 (ofMsbFirst (bits.drop 8)))
  have htake : (bits.take 8).length = 8 := by simp [hlen]
  have hdrop : (bits.drop 8).length = c.dataW := by simp [hlen]
  have hheaderBits := msbFirst_ofMsbFirst (w := 8) htake.le
  have hdataBits := msbFirst_ofMsbFirst (w := 32) (hdrop.le.trans hN)
  have hlt := ofMsbFirst_lt (bits.drop 8)
  rw [htake] at hheaderBits
  rw [hdrop] at hdataBits hlt
  constructor
  · rw [encode, frameBits, hheader, hdata, hheaderBits, hdataBits, List.take_append_drop]
  · rw [hwf, dataFits_iff, BitVec.toNat_ofNat]
    exact (Nat.mod_le _ _).trans_lt hlt

/-- A word that is the encoding of a well-formed transaction decodes to it. -/
theorem decode_of_encode_eq {c : Config} {i : Instr} {bits : List Bool} (h : encode c i = bits) (hN : c.dataW ≤ 32)
    (hwf : i.wellFormed c = true) : decode c bits = .ok i := h ▸ decodeInvertsEncode c i hN hwf

/-- Settles O13: each word of the table is the encoding of its transaction. -/
theorem writtenOutWordsDecode : Obligations.WrittenOutWordsDecode := by
  and_intros <;> exact decode_of_encode_eq (by decide) (by decide) (by decide)

end Sys2Proof.Machine
end

section
/-! PROOFS. Laws of the frame for the remaining statements of 30_encoding.md: a frame inside an assertion, and what the ignored
bits of a frame leave alone. -/

namespace Sys2Proof.Machine

/-! ## A frame inside an assertion -/

/-- The state in which a frame inside an assertion starts, after `k` idle clocks (R98, D22). -/
def reopened (s : State) (k : Nat) : State :=
  { frameInit s with latch := 0#4, sdoSeen := s.sdoSeen ++ List.replicate k none, draws := s.draws + k }

/-- Before the first bit of an assertion the invariant leaves nothing to reset (R24, R26, R44, R155). -/
theorem reopened_zero {s : State} (hinv : Inv s) (hact : s.act = true) (hn : s.n = s.cfg.frameLen) : reopened s 0 = s := by
  obtain ⟨-, -, hclear, hhdr, -, -, -, -, -, -, -, -, -, -, hlatch, -, -⟩ := hinv
  have haddr : s.cfg.dataW < s.n := by rw [hn, Config.frameLen]; omega
  obtain ⟨hdin, hsel, hsout, hsdoQ, hlcs⟩ := hclear haddr
  have hh : s.hdr = 0#8 := BitVec.eq_of_toNat_eq (Nat.lt_one_iff.1 (by simpa [hn] using hhdr haddr))
  have hl : s.latch = 0#4 := hlatch ⟨hact, .inl (Nat.zero_lt_of_lt haddr)⟩
  simp only [reopened, frameInit, List.replicate_zero, List.append_nil, Nat.add_zero, ← hn, ← hdin, ← hsel, ← hsout,
    ← hsdoQ, ← hlcs, ← hh, ← hl]

/-- The idle clock between two frames of a back-to-back block (R98, R99, D22). -/
theorem runEvents_idleClock {s : State} (b : Bool) (evs : List Ev) (hact : s.act = true) (hsck : s.sckQ = false)
    (hb : s.cfg.backToBack = true) (hn : s.n = 0) (hlcs : s.lcs = false) (hq : s.sdoQ = none) :
    runEvents (.sckRise b :: .sckFall :: evs) s = runEvents evs (reopened s 1) := by
  have hs : sdo s = none := by simp only [sdo, muxOut, hlcs, hq]; cases s.sel <;> simp
  have hL : s.cfg.dataW < s.cfg.frameLen := by rw [Config.frameLen]; omega
  simp [runEvents, applyEvent, legal, effect, observe, sckRise, sckFall, sckRiseDone, phase, groupLatchClear, frameInit,
    selectChanges, clockRises, activeLink, reopened, hact, hsck, hb, hn, hlcs, hs, hL]

/-- The lead-in of a frame inside an assertion: the idle clock after a complete frame, nothing before the first bit
(R77, R85, D22). -/
theorem runEvents_leadIn_inside {s : State} {k : Nat} (evs : List Ev) (hinv : Inv s) (hact : s.act = true)
    (hsck : s.sckQ = false) (hb : s.cfg.backToBack = true) (hk : s.n = 0 ∧ k = 1 ∨ s.n = s.cfg.frameLen ∧ k = 0) :
    runEvents (leadIn s ++ evs) s = runEvents evs (reopened s k) := by
  rcases hk with ⟨hn, rfl⟩ | ⟨hn, rfl⟩
  · obtain ⟨-, -, -, -, -, -, -, -, -, -, -, hdone, -⟩ := hinv
    obtain ⟨hlcs, hq⟩ := hdone ⟨hact, hsck, hn⟩
    have hlead : leadIn s = [.sckRise false, .sckFall] := by simp [leadIn, hact, hsck, hb, hn]
    rw [hlead]
    exact runEvents_idleClock false evs hact hsck hb hn hlcs hq
  · have hlead : leadIn s = [] := by simp [leadIn, hact, hsck, hn, Config.frameLen]
    rw [hlead, reopened_zero hinv hact hn, List.nil_append]

/-- A whole transaction inside an assertion of a back-to-back block, after `k` idle clocks (R85, R87): everything it does.
`m` is the binding its address selects, `i` the sub-target index after its read-request, `v` the chain its read-request
loads. -/
theorem xfer_inside (a : Addr) (we : Bool) (d : Data) {s : State} {k : Nat} (hinv : Inv s) (hact : s.act = true)
    (hsck : s.sckQ = false) (hb : s.cfg.backToBack = true) (hN : 1 ≤ s.cfg.dataW ∧ s.cfg.dataW ≤ 32)
    (hk : s.n = 0 ∧ k = 1 ∨ s.n = s.cfg.frameLen ∧ k = 0) {m : Option Nat} {i : BitVec 2} {v : Option Data}
    (hm : route s.cfg a = m) (hi : loadedIndex s.cfg s.lastIndex a m = i)
    (hv : loadedSout { s with draws := s.draws + k + 7 } m = v) :
    xfer a we d s = .next
      { frameInit s with
        n := 0
        hdr := headerOf a we
        din := fitData s.cfg.dataW d
        sel := m
        sout := v
        regs := endRegs s.cfg s.regs m we (fitData s.cfg.dataW d)
        lastIndex := i
        latch := endLatch s.cfg m 0#4 i
        history := s.history ++ (.readRequest a we m :: .frameComplete a we (fitData s.cfg.dataW d) ::
                     endCommit s.cfg m we (fitData s.cfg.dataW d)) ++ endStrobe s.cfg m i
        sdoSeen := s.sdoSeen ++ List.replicate k none ++ List.replicate 8 none ++
                     seenBits s.cfg s.extSdoPin m v s.cfg.dataW (s.draws + k + 8) s.cfg.dataW
        draws := s.draws + k + s.cfg.frameLen
        downstream := s.downstream ++ linkRise s.cfg m ++ (msbFirst s.cfg.dataW d).flatMap (linkClock s.cfg m) ++
                        linkFall s.cfg m } := by
  have hframe := runEvents_frame a we d [] (s := reopened s k) hact hsck ⟨rfl, rfl, rfl, rfl, rfl, rfl, rfl⟩ hN hm hi hv
  have hout : leadOut s = [] := by simp [leadOut, hact]
  rw [xfer, runBurst, burstEvents, List.append_assoc, runEvents_leadIn_inside _ hinv hact hsck hb hk, hout]
  exact hframe

/-- What the master samples in the DATA phase while no binding is selected, while a Register binding is, and while a device
is (R75, R121, R127, R141). -/
theorem seenBits_loadedSout (s : State) (m : Option Nat) (i count : Nat) :
    (m = none → seenBits s.cfg s.extSdoPin m (loadedSout s m) count i count = List.replicate count none) ∧
      ∀ e, m = some e →
        (kindOf s.cfg e = some .register →
          seenBits s.cfg s.extSdoPin m (loadedSout s m) count i count =
            (msbFirst count (readValueAt s e s.draws)).map some) ∧
        (hasLink s.cfg e = true →
          seenBits s.cfg s.extSdoPin m (loadedSout s m) count i count = deviceBits s e i count) := by
  refine ⟨?_, ?_⟩
  · rintro rfl
    exact seenBits_silent _ _ _ _ _
  · rintro e rfl
    refine ⟨fun hk => ?_, fun hl => seenBits_device s _ hl _ _ _⟩
    have hlink : linkOf s.cfg (some e) = false := by simp [linkOf, not_hasLink_of_register hk]
    simp only [loadedSout, hk, if_true, regRead_eq]
    exact seenBits_chain _ _ _ hlink _ _

/-! ## Ignored bits -/

/-- A frame with `we = 0` commits nothing (R97). -/
theorem endRegs_of_read (c : Config) (regs : List (Nat × Data)) (m : Option Nat) (d : Data) :
    endRegs c regs m false d = regs := by
  cases m <;> simp [endRegs]

/-- A frame to a binding without a stored value commits nothing (R128, D36). -/
theorem endRegs_of_not_stored {c : Config} {e : Nat} (h : ¬ (regKindOf c e = some .wo ∨ regKindOf c e = some .rw))
    (regs : List (Nat × Data)) (we : Bool) (d : Data) : endRegs c regs (some e) we d = regs := by
  simp [endRegs, committedRegs_of_not_stored h]

/-- A frame to a device commits nothing (R97). -/
theorem endRegs_of_not_register {c : Config} {e : Nat} (h : kindOf c e ≠ some .register) (regs : List (Nat × Data))
    (we : Bool) (d : Data) : endRegs c regs (some e) we d = regs := by
  simp [endRegs, h]

/-- A transaction to a Register binding forwards no clock (R138, R140). -/
theorem flatMap_linkClock_register {c : Config} {e : Nat} (h : kindOf c e = some .register) (l : List Bool) :
    l.flatMap (linkClock c (some e)) = [] :=
  flatMap_linkClock_none c (by simp [linkOf, not_hasLink_of_register h]) l

/-- The two transactions differ in the event history only (R83). -/
abbrev SameButHistory (i j : Instr) (s : State) : Prop :=
  ∃ t u, exec i s = .next t ∧ exec j s = .next u ∧ { t with history := u.history } = u

/-- Two transactions from an idle state that select one binding with one index, commit the same and forward the same differ
in the event history only. -/
theorem sameButHistory_of_idle {s : State} {i j : Instr} (hact : s.act = false) (hN : 1 ≤ s.cfg.dataW ∧ s.cfg.dataW ≤ 32)
    {e : Nat} (hi : route s.cfg i.addr = some e) (hj : route s.cfg j.addr = some e)
    (hindex : addrIndex i.addr = addrIndex j.addr)
    (hregs : endRegs s.cfg s.regs (some e) i.we (fitData s.cfg.dataW i.data) =
      endRegs s.cfg s.regs (some e) j.we (fitData s.cfg.dataW j.data))
    (hclocks : (msbFirst s.cfg.dataW i.data).flatMap (linkClock s.cfg (some e)) =
      (msbFirst s.cfg.dataW j.data).flatMap (linkClock s.cfg (some e))) :
    SameButHistory i j s := by
  have hloaded : loadedIndex s.cfg s.lastIndex i.addr (some e) = loadedIndex s.cfg s.lastIndex j.addr (some e) := by
    simp [loadedIndex, hindex]
  refine ⟨_, _, (exec_eq_xfer i s).trans (xfer_of_idle i.addr i.we i.data hact hN hi hloaded rfl),
    (exec_eq_xfer j s).trans (xfer_of_idle j.addr j.we j.data hact hN hj rfl rfl), ?_⟩
  simp only [hregs, hclocks]

theorem addrNibble_addrOf (hi : BitVec 3) (region sub : BitVec 2) : addrNibble (addrOf hi region sub) = region ++ sub := by
  revert hi region sub; decide

theorem addrIndex_addrOf (hi : BitVec 3) (region sub : BitVec 2) : addrIndex (addrOf hi region sub) = sub := by
  revert hi region sub; decide

/-- Under the canonical table `addr[6:4]` does not matter to the routing (R79). -/
theorem route_addrOf_hi {c : Config} (hc : CanonicalTable c) (hi hi' : BitVec 3) (region sub : BitVec 2) :
    route c (addrOf hi' region sub) = route c (addrOf hi region sub) := by
  rw [route_of_canonicalTable hc, route_of_canonicalTable hc,
    canonicalPosition_congr c.addrMap (a := addrOf hi region sub) (by rw [addrNibble_addrOf, addrNibble_addrOf])]

/-- The register rows stand at the position of their number (R51, R79): checked address by address. -/
theorem canonical_registerRow (m : AddrMap) (hi : BitVec 3) (r : BitVec 2) :
    canonicalPosition m (addrOf hi 0b00#2 r) = r.toNat ∧ canonicalKind m (addrOf hi 0b00#2 r) = .register := by
  cases m <;> (revert hi r; decide)

/-- The other rows hold no Register binding (R51, R79): checked address by address. -/
theorem canonicalKind_deviceRow (m : AddrMap) (hi : BitVec 3) (region sub : BitVec 2) (hregion : region ≠ 0b00#2) :
    canonicalKind m (addrOf hi region sub) ≠ .register := by
  cases m <;> (revert hi region sub; decide)

/-- Under the canonical table the register rows select the register of their number. -/
theorem route_registerRow {c : Config} (hc : CanonicalTable c) (hi : BitVec 3) (r : BitVec 2) :
    route c (addrOf hi 0b00#2 r) = some r.toNat ∧ kindOf c r.toNat = some .register := by
  obtain ⟨hpos, hkind⟩ := canonical_registerRow c.addrMap hi r
  rw [← hpos, kindOf_of_canonicalTable hc, hkind]
  exact ⟨route_of_canonicalTable hc _, rfl⟩

/-- Under the canonical table the other rows select no Register binding. -/
theorem route_deviceRow {c : Config} (hc : CanonicalTable c) (hi : BitVec 3) {region : BitVec 2} (sub : BitVec 2)
    (hregion : region ≠ 0b00#2) :
    ∃ e, route c (addrOf hi region sub) = some e ∧ kindOf c e ≠ some .register := by
  refine ⟨_, route_of_canonicalTable hc _, ?_⟩
  simpa [kindOf_of_canonicalTable hc] using canonicalKind_deviceRow c.addrMap hi region sub hregion

/-- Two register transactions that differ in `addr[6:4]` only, or in data that is not committed (R74, R79, R129). -/
theorem sameButHistory_registerRow {s : State} {i j : Instr} {hi hi' : BitVec 3} {r : BitVec 2}
    (hact : s.act = false) (hN : 1 ≤ s.cfg.dataW ∧ s.cfg.dataW ≤ 32) (hc : CanonicalTable s.cfg)
    (hia : i.addr = addrOf hi 0b00#2 r) (hja : j.addr = addrOf hi' 0b00#2 r)
    (hregs : endRegs s.cfg s.regs (some r.toNat) i.we (fitData s.cfg.dataW i.data) =
      endRegs s.cfg s.regs (some r.toNat) j.we (fitData s.cfg.dataW j.data)) :
    SameButHistory i j s := by
  obtain ⟨hroute, hkind⟩ := route_registerRow hc hi r
  refine sameButHistory_of_idle hact hN (hia ▸ hroute) (hja ▸ (route_registerRow hc hi' r).1) ?_ hregs ?_
  · rw [hia, hja, addrIndex_addrOf, addrIndex_addrOf]
  · rw [flatMap_linkClock_register hkind, flatMap_linkClock_register hkind]

/-- Two pass-through or group transactions that differ in `addr[6:4]` and `we` only (R74, R79). -/
theorem sameButHistory_deviceRow {s : State} {i j : Instr} {hi hi' : BitVec 3} {region sub : BitVec 2}
    (hact : s.act = false) (hN : 1 ≤ s.cfg.dataW ∧ s.cfg.dataW ≤ 32) (hc : CanonicalTable s.cfg)
    (hregion : region ≠ 0b00#2) (hia : i.addr = addrOf hi region sub) (hja : j.addr = addrOf hi' region sub)
    (hdata : i.data = j.data) :
    SameButHistory i j s := by
  obtain ⟨e, hroute, hkind⟩ := route_deviceRow hc hi sub hregion
  refine sameButHistory_of_idle hact hN (hia ▸ hroute) (hja ▸ (route_addrOf_hi hc hi hi' region sub).trans hroute) ?_ ?_
    (by rw [hdata])
  · rw [hia, hja, addrIndex_addrOf, addrIndex_addrOf]
  · rw [endRegs_of_not_register hkind, endRegs_of_not_register hkind]

end Sys2Proof.Machine
end

section
/-! PROOFS. The statements of 30_encoding.md about frames inside an assertion and about ignored bits settled. -/

namespace Sys2Proof.Machine

/-- Settles O52: both frames are `runEvents_frame` from a frame-initial state with the latch lines low; inside the assertion
`head - 8` idle clocks come first, and each is one more observation instant. -/
theorem frameInsideAnAssertionHasTheSameEffect : Obligations.FrameInsideAnAssertionHasTheSameEffect := by
  intro s i head hinv hact hsck hb hadm hhead
  have hN := admitted_width hadm
  obtain ⟨k, rfl, hk⟩ : ∃ k, head = k + 8 ∧ (s.n = 0 ∧ k = 1 ∨ s.n = s.cfg.frameLen ∧ k = 0) := by
    rcases hhead with ⟨hn, rfl⟩ | ⟨hn, rfl⟩
    · exact ⟨1, rfl, .inl ⟨hn, rfl⟩⟩
    · exact ⟨0, rfl, .inr ⟨hn, rfl⟩⟩
  refine ⟨_, _, (exec_eq_xfer i s).trans (xfer_inside i.addr i.we i.data hinv hact hsck hb hN hk rfl rfl rfl),
    (exec_eq_xfer i _).trans (xfer_of_idle (s := { frameInit s with act := false }) i.addr i.we i.data rfl hN rfl rfl rfl),
    hact, rfl, hsck, rfl, rfl, rfl, rfl, rfl, rfl, rfl, rfl, ?_, _, ?_,
    seenBits_loadedSout { s with draws := s.draws + k + 7 } (route s.cfg i.addr) (s.draws + k + 8) s.cfg.dataW⟩
  · simp only [Config.frameLen]
    omega
  · simp only [List.append_assoc, List.replicate_add]

/-- Settles O55: row by row, by what the row's binding commits and forwards. -/
theorem ignoredBitsHaveNoEffect : Obligations.IgnoredBitsHaveNoEffect := by
  intro s i j hi hi' x we we' d d' hact hadm hc hrows
  have hN := admitted_width hadm
  rcases hrows with ⟨rfl, rfl⟩ | ⟨rfl, rfl⟩ | ⟨rfl, rfl, hro⟩ | ⟨rfl, rfl⟩ | ⟨rfl, rfl⟩ | ⟨rfl, rfl⟩ | ⟨rfl, rfl⟩
  · refine sameButHistory_registerRow hact hN hc rfl rfl ?_
    simp only [Instr.we, endRegs_of_read]
  · exact sameButHistory_registerRow hact hN hc rfl rfl rfl
  · have hstored : ¬ (regKindOf s.cfg x.toNat = some .wo ∨ regKindOf s.cfg x.toNat = some .rw) := by simp [hro]
    refine sameButHistory_registerRow hact hN hc rfl rfl ?_
    simp only [endRegs_of_not_stored hstored]
  all_goals exact sameButHistory_deviceRow hact hN hc (by decide) rfl rfl rfl

end Sys2Proof.Machine
end

section
/-! PROOFS. Laws for the statements of 40_frame_engine.md: when an event is legal, what it adds to the history, what the
read-request loads and the terminal edge commits, clocks beyond a frame, and the step by the next input. -/

namespace Sys2Proof.Machine

/-! ## Legal events -/

/-- The four events that level signals cannot produce (R103). -/
theorem legal_eq_false_iff (s : State) (ev : Ev) :
    legal s ev = false ↔
      ev = .csAssert ∧ s.act = true ∨ ev = .csDeassert ∧ s.act = false ∨ (∃ b, ev = .sckRise b) ∧ s.sckQ = true ∨
        ev = .sckFall ∧ s.sckQ = false := by
  cases ev <;> simp [legal]

theorem applyEvent_of_not_legal {ev : Ev} {s : State} (h : legal s ev = false) :
    applyEvent ev s = .refused (.illegal ev) := by simp [applyEvent, h]

/-- A legal event answers a next state, by one of the twelve cases. -/
theorem exists_eventCase_of_legal {ev : Ev} {s : State} (h : legal s ev = true) :
    ∃ t, applyEvent ev s = .next t ∧ EventCase s ev t :=
  ⟨_, applyEvent_of_legal h, applyEvent_cases (applyEvent_of_legal h)⟩

/-- A rising edge comes with the clock low (R90, R103). -/
theorem exists_riseCase {s : State} (hsck : s.sckQ = false) (b : Bool) :
    ∃ t, applyEvent (.sckRise b) s = .next t ∧ EventCase s (.sckRise b) t :=
  exists_eventCase_of_legal (by simp [legal, hsck])

/-- A falling edge comes with the clock high (R90, R103). -/
theorem exists_fallCase {s : State} (hsck : s.sckQ = true) :
    ∃ t, applyEvent .sckFall s = .next t ∧ EventCase s .sckFall t :=
  exists_eventCase_of_legal hsck

/-- Asserting chip-select moves no local select line, because none is active before or after (R93, R137). -/
theorem applyEvent_csAssert {s : State} (hact : s.act = false) :
    applyEvent .csAssert s = .next { frameInit s with act := true, latch := 0#4 } := by
  rw [applyEvent_of_legal (by simp [legal, hact])]
  simp [effect, csAssert, observe, selectChanges, activeLink, hact, groupLatchClear, frameInit]

/-- A falling edge outside an assertion or in the ADDR phase changes the clock level only (R99, R102). -/
theorem applyEvent_quietFall {s : State} (hsck : s.sckQ = true)
    (hquiet : s.act = false ∨ s.act = true ∧ s.cfg.dataW < s.n) :
    applyEvent .sckFall s = .next { s with sckQ := false } := by
  obtain ⟨t, ht, hcase⟩ := exists_fallCase hsck
  cases hcase with
  | fallQuiet => exact ht
  | fallData ha _ _ hle => exact absurd hquiet (by simp [ha, hle])
  | fallDone ha _ hn => exact absurd hquiet (by simp [ha, hn])

/-! ## The read-request and the commit -/

/-- The read-request loads the read value of a Register binding (R96, R127). -/
theorem loadedSout_of_register {s : State} {e : Nat} (hk : kindOf s.cfg e = some .register) :
    loadedSout s (some e) = some (readValueAt s e s.draws) := by simp [loadedSout, hk, regRead_eq]

/-- The read-request loads nothing from another binding (R96). -/
theorem loadedSout_of_not_register {s : State} {e : Nat} (hk : kindOf s.cfg e ≠ some .register) :
    loadedSout s (some e) = none := by simp [loadedSout, hk]

/-- The read-request for a binding that is not the Group binding leaves the index (R96, R150). -/
theorem loadedIndex_of_not_group {c : Config} {e : Nat} (hk : kindOf c e ≠ some .group) (old : BitVec 2) (a : Addr) :
    loadedIndex c old a (some e) = old := by simp [loadedIndex, hk]

/-- With `we = 1` and a Register selection the terminal edge commits (R97). -/
theorem commitEffect_of_write {s : State} {e : Nat} (hwe : headerWe s.hdr = true) (hsel : s.sel = some e)
    (hk : kindOf s.cfg e = some .register) (d : Data) :
    commitEffect s d = (committedRegs s.cfg s.regs e d, [.writeCommit e d]) := by simp [commitEffect, hwe, hsel, hk]

/-- With `we = 0` or another selection the terminal edge commits nothing (R97, D5). -/
theorem commitEffect_of_no_write {s : State} (h : headerWe s.hdr = false ∨ ¬ selects s .register) (d : Data) :
    commitEffect s d = (s.regs, []) := by
  rcases commitEffect_cases s d with ⟨e, hsel, hwe, hk, -⟩ | ⟨heff, -⟩
  · simp [hwe, hsel, hk] at h
  · exact heff

/-- The commit a terminal edge records (R97, R104). -/
theorem writeCommit_mem_commitEffect (s : State) (d : Data) (e : Nat) (v : Data) :
    TxEvent.writeCommit e v ∈ (commitEffect s d).2 ↔
      headerWe s.hdr = true ∧ s.sel = some e ∧ kindOf s.cfg e = some .register ∧ v = d := by
  rcases commitEffect_cases s d with ⟨e', hsel, hwe, hk, heff⟩ | ⟨heff, hno⟩
  · suffices e = e' ∧ v = d ↔ e' = e ∧ kindOf s.cfg e = some .register ∧ v = d by simpa [heff, hsel, hwe]
    constructor
    · rintro ⟨rfl, hv⟩
      exact ⟨rfl, hk, hv⟩
    · rintro ⟨rfl, -, hv⟩
      exact ⟨rfl, hv⟩
  · simp only [heff, List.not_mem_nil, false_iff]
    rintro ⟨hwe, hsel, hk, -⟩
    exact hno e hsel hwe hk

theorem commitEffect_length_le (s : State) (d : Data) : (commitEffect s d).2.length ≤ 1 := by
  rcases commitEffect_cases s d with ⟨e, -, -, -, heff⟩ | ⟨heff, -⟩ <;> simp [heff]

/-- What one event adds to the history: the completion and the commit on the terminal edge, else no commit (R91, R97). -/
theorem applyEvent_history {ev : Ev} {s t : State} (h : applyEvent ev s = .next t) :
    (∃ b, ev = .sckRise b ∧ s.act = true ∧ s.n = 1 ∧ 0 < s.cfg.dataW ∧
      t.history = s.history ++ (.frameComplete (headerAddr s.hdr) (headerWe s.hdr) (shiftData s.cfg.dataW s.din b) ::
        (commitEffect s (shiftData s.cfg.dataW s.din b)).2)) ∨
    (¬ ((∃ b, ev = .sckRise b) ∧ s.act = true ∧ s.n = 1 ∧ 0 < s.cfg.dataW) ∧
      ∃ new, t.history = s.history ++ new ∧ ∀ e v, TxEvent.writeCommit e v ∉ new) := by
  cases applyEvent_cases h with
  | @riseTerminal _ _ b _ ha _ hn hN hd =>
    subst hd
    exact .inl ⟨b, rfl, ha, hn, hN, by simp⟩
  | assert | fallQuiet | fallData => exact .inr ⟨by simp, [], by simp⟩
  | riseIdle ha => exact .inr ⟨by simp [ha], [], by simp⟩
  | riseAddr _ _ hn | riseData _ _ hn | riseRestart _ _ hn | riseExtra _ _ hn => exact .inr ⟨by omega, [], by simp⟩
  | riseRequest _ _ hn => exact .inr ⟨by omega, _, rfl, by simp⟩
  | deassert => exact .inr ⟨by simp, _, List.append_assoc _ _ _, by simp⟩
  | fallDone => exact .inr ⟨by simp, _, rfl, by simp⟩

/-! ## Clocks beyond the frame -/

/-- Any `L` bits are the bits of a frame (R57, R82). -/
theorem exists_frameBits {c : Config} {bits : List Bool} (hN : c.dataW ≤ 32) (hlen : bits.length = c.frameLen) :
    ∃ a we d, bits = frameBits c.dataW a we d := by
  obtain ⟨i, hi⟩ := (exactlyTheFullLengthDecodes c bits).1 hlen
  exact ⟨i.addr, i.we, i.data, (encodeInvertsDecode c bits i hN hi).1.symm⟩

/-- The engine after the last falling edge of a frame, within the assertion (R25, R101). -/
structure FrameDone (s : State) : Prop where
  act  : s.act = true
  sckQ : s.sckQ = false
  n    : s.n = 0
  sdoQ : s.sdoQ = none
  lcs  : s.lcs = false

/-- `L` bits from an idle engine are one complete frame, whatever follows them within the assertion (R87). -/
theorem exists_frameDone {s : State} {bits : List Bool} (hact : s.act = false) (hN : 1 ≤ s.cfg.dataW ∧ s.cfg.dataW ≤ 32)
    (hlen : bits.length = s.cfg.frameLen) :
    ∃ u, u.cfg = s.cfg ∧ FrameDone u ∧ ∀ extra, runBurst (bits ++ extra) s = runEvents (clocks extra ++ [.csDeassert]) u := by
  obtain ⟨a, we, d, rfl⟩ := exists_frameBits hN.2 hlen
  have hframe (extra : List Bool) := runEvents_frame a we d (clocks extra ++ [.csDeassert]) (s := opened s) rfl rfl
    ⟨rfl, rfl, rfl, rfl, rfl, rfl, rfl⟩ hN rfl rfl rfl
  refine ⟨_, ?cfg, ?done, fun extra => Eq.trans ?lead (hframe extra)⟩
  case cfg => rfl
  case done => exact ⟨rfl, rfl, rfl, rfl, rfl⟩
  case lead =>
    rw [runBurst, burstEvents, List.append_assoc, runEvents_leadIn _ hact, clocks_append, List.append_assoc, leadOut, hact]
    rfl

/-- Without a local select no strobe is owed (R94, R101). -/
theorem groupActive_of_lcs_false {s : State} (hlcs : s.lcs = false) : groupActive s = false := by
  rw [Bool.eq_false_iff, Ne, groupActive_iff]
  simp [hlcs]

/-- With neither a registered bit nor a local select, `sdo` is `ANY` (R122). -/
theorem sdo_of_quiet {s : State} (hlcs : s.lcs = false) (hq : s.sdoQ = none) : sdo s = none := by
  simp only [sdo, muxOut, hlcs, hq]
  cases s.sel <;> simp

/-- One clock beyond the frame without back-to-back adds one unspecified sample (R98, R101, D21). -/
theorem FrameDone.runEvents_extraClock {s : State} (h : FrameDone s) (hb : s.cfg.backToBack = false) (b : Bool)
    (evs : List Ev) :
    runEvents (.sckRise b :: .sckFall :: evs) s =
      runEvents evs { s with sdoSeen := s.sdoSeen ++ [none], draws := s.draws + 1 } := by
  obtain ⟨hact, hsck, hn, hq, hlcs⟩ := h
  have hs := sdo_of_quiet hlcs hq
  simp [runEvents, applyEvent, legal, effect, observe, sckRise, sckFall, sckRiseDone, sckFallDone, phase, selectChanges,
    clockRises, activeLink, hact, hsck, hb, hn, hlcs, hq, hs, groupActive_of_lcs_false]

/-- Clocks beyond the frame without back-to-back add nothing but unspecified samples (R98, D21). -/
theorem FrameDone.runEvents_extraClocks {s : State} (h : FrameDone s) (hb : s.cfg.backToBack = false)
    (extra : List Bool) (evs : List Ev) :
    runEvents (clocks extra ++ evs) s =
      runEvents evs { s with sdoSeen := s.sdoSeen ++ List.replicate extra.length none,
                             draws := s.draws + extra.length } := by
  induction extra generalizing s with
  | nil => simp
  | cons b extra ih =>
    obtain ⟨hact, hsck, hn, hq, hlcs⟩ := id h
    rw [clocks, List.cons_append, List.cons_append, h.runEvents_extraClock hb,
      ih (s := { s with sdoSeen := s.sdoSeen ++ [none], draws := s.draws + 1 }) ⟨hact, hsck, hn, hq, hlcs⟩ hb]
    simp only [List.append_assoc, List.length_cons, List.replicate_succ, List.singleton_append]
    rw [Nat.add_assoc, Nat.add_comm 1]

/-! ## The step by the next input -/

/-- Under an admitted configuration a step takes the oldest input (R116). -/
theorem step_of_pending {s : State} {x : Input} {rest : List Input} (hadm : admitted s.cfg = true)
    (hp : s.pending = x :: rest) : step s = applyInput x { s with pending := rest } := by
  simp [step, configError_of_admitted hadm, takeInput, hp]

/-- Without an input nothing changes (R108, R177). -/
theorem step_of_idle {s : State} (hadm : admitted s.cfg = true) (hp : s.pending = []) : step s = .next s := by
  simp [step, configError_of_admitted hadm, takeInput, hp]

/-- A burst that is no frame runs edge by edge (R58, R98). -/
theorem applyInput_burst_of_length_ne {s : State} {bits : List Bool} (hlen : bits.length ≠ s.cfg.frameLen) :
    applyInput (.burst bits) s = runBurst bits s := by
  obtain ⟨-, hshort, hlong⟩ := exactlyTheFullLengthDecodes s.cfg bits
  rcases Nat.lt_or_gt_of_ne hlen with h | h
  · simp [applyInput, hshort h]
  · simp [applyInput, hlong h]

end Sys2Proof.Machine
end

section
/-! PROOFS. The statements of 40_frame_engine.md settled. -/

namespace Sys2Proof.Machine

/-- Settles O33: only the terminal edge can commit, and `writeCommit_mem_commitEffect` says when it does. -/
theorem writeCommitIsRecordedExactlyAtTheTerminalEdge : Obligations.WriteCommitIsRecordedExactlyAtTheTerminalEdge := by
  intro s t ev h
  rcases applyEvent_history h with ⟨b, rfl, ha, hn, hN, hhist⟩ | ⟨hedge, new, hhist, hnone⟩
  · refine ⟨_, hhist, fun e v => ?_, fun e v => ?_⟩
    · simp [writeCommit_mem_commitEffect, ha, hn, hN]
    · rw [List.count_cons_of_ne (by simp)]
      exact List.count_le_length.trans (commitEffect_length_le s _)
  · refine ⟨new, hhist, fun e v => ⟨fun hx => absurd hx (hnone e v), ?_⟩, fun e v => ?_⟩
    · rintro ⟨b, hev, ha, hn, hN, -⟩
      exact absurd ⟨⟨b, hev⟩, ha, hn, hN⟩ hedge
    · simp [List.count_eq_zero.2 (hnone e v)]

/-- Settles O54: the frame is complete before the first extra clock, and the deassertion after the last one resets the same
shift state. -/
theorem extraClocksChangeNothing : Obligations.ExtraClocksChangeNothing := by
  intro s bits extra hact hadm hb hlen
  obtain ⟨u, hcfg, hu, hrun⟩ := exists_frameDone hact (admitted_width hadm) hlen
  have hend : ∀ v : State, v.act = true → v.n = 0 → v.lcs = false →
      runEvents [.csDeassert] v = .next { frameInit v with act := false } := fun v ha hn hl => by
    simp only [runEvents, applyEvent_csDeassert_done ha hn hl]
  refine ⟨{ frameInit u with act := false }, ?_, ?_⟩
  · rw [← List.append_nil bits, hrun]
    exact hend u hu.act hu.n hu.lcs
  · rw [hrun, hu.runEvents_extraClocks (hcfg ▸ hb)]
    exact hend _ hu.act hu.n hu.lcs

/-- Settles O19: each kind of input by what `applyInput` does with it. -/
theorem stepTakesTheNextInput : Obligations.StepTakesTheNextInput := by
  intro s hadm
  refine ⟨step_of_idle hadm, fun bits rest hp hlen => ?_, fun ev rest hp => step_of_pending hadm hp,
    fun csPin sck sdi rest t hp ht => ?_, fun e v rest hp => ?_, fun e b rest hp => ?_⟩
  · exact (step_of_pending hadm hp).trans (applyInput_burst_of_length_ne (s := { s with pending := rest }) hlen)
  · rw [step_of_pending hadm hp, applyInput, ht, recordSample]
  · exact ⟨_, step_of_pending hadm hp, pin_lookup_same _ e v, fun e' he => pin_lookup_other _ v he⟩
  · exact ⟨_, step_of_pending hadm hp, pin_lookup_same _ e b, fun e' he => pin_lookup_other _ b he⟩

/-- Settles O21: an event is refused exactly where it is not legal. -/
theorem exactlyTheImpossibleEventsAreRefused : Obligations.ExactlyTheImpossibleEventsAreRefused := by
  intro s ev
  rw [← legal_eq_false_iff]
  exact ⟨applyEvent_of_not_legal, fun h => ⟨_, applyEvent_of_legal (Bool.eq_true_of_not_eq_false h)⟩⟩

/-- Settles O22: the frame reset and the latch clear, and no local select line moves. -/
theorem chipSelectAssertionStartsAFrame : Obligations.ChipSelectAssertionStartsAFrame :=
  fun _ hact => applyEvent_csAssert hact

/-- Settles O23: the strobe is owed with the counter at 0, the abort recorded with it above 0, so never both. -/
theorem chipSelectDeassertionEndsOrAbortsTheFrame : Obligations.ChipSelectDeassertionEndsOrAbortsTheFrame := by
  intro s hact
  obtain ⟨t, ht, hcase⟩ := exists_eventCase_of_legal (s := s) (ev := .csDeassert) hact
  refine ⟨t, ht, ?_⟩
  cases hcase with
  | deassert =>
    rw [← groupActive_iff]
    refine ⟨rfl, shiftInitial_frameInit s, rfl, rfl, rfl, rfl, rfl, rfl, fun hstrobe => ?_, fun hno => if_neg hno,
      fun habort => ?_, fun ⟨hno, hno'⟩ => ?_⟩
    · simp [hstrobe]
    · have hn : s.n ≠ 0 := by omega
      simp [hn, habort]
    · simp [hno, hno']

/-- Settles O24: an edge above the read-request only shifts, and the read-request records itself. -/
theorem addressPhaseEdgeShiftsTheHeader : Obligations.AddressPhaseEdgeShiftsTheHeader := by
  intro s b hact hsck hn
  obtain ⟨t, ht, hcase⟩ := exists_riseCase hsck b
  refine ⟨t, ht, ?_⟩
  cases hcase with
  | riseAddr _ _ hn' =>
    exact ⟨rfl, rfl, rfl, hact, rfl, rfl, rfl, rfl, rfl, rfl, fun _ => ⟨rfl, rfl, rfl, rfl⟩, fun h => by omega⟩
  | riseRequest _ _ hn' hh =>
    subst hh
    have hN : s.cfg.dataW = s.n - 1 := by omega
    exact ⟨rfl, rfl, hN, hact, rfl, rfl, rfl, rfl, rfl, rfl, fun h => absurd hN.symm h, fun _ => ⟨_, rfl⟩⟩
  | riseIdle ha => simp [hact] at ha
  | riseData | riseTerminal | riseRestart | riseExtra => omega

/-- Settles O25: what the read-request loads, by the kind of the binding it selects. -/
theorem readRequestLoadsTheSelectedEndpoint : Obligations.ReadRequestLoadsTheSelectedEndpoint := by
  rintro s b h hact hsck hn rfl
  obtain ⟨t, ht, hcase⟩ := exists_riseCase hsck b
  refine ⟨t, ht, ?_⟩
  cases hcase with
  | riseRequest _ _ _ hh =>
    subst hh
    refine ⟨rfl, rfl, rfl, rfl, rfl, rfl, hact, rfl, rfl, rfl, rfl, rfl, fun e hsel hk => ?_, fun e hsel hk => ?_,
      fun e hsel hk => ?_, fun hsel => ?_⟩
    all_goals
      simp only at hsel ⊢
      rw [hsel]
    · exact ⟨loadedSout_of_register hk, loadedIndex_of_not_group (by simp [hk]) _ _⟩
    · exact ⟨loadedSout_of_not_register (by simp [hk]), loadedIndex_of_group (by simp [hk]) _ _⟩
    · exact ⟨loadedSout_of_not_register (by simp [hk]), loadedIndex_of_not_group (by simp [hk]) _ _⟩
    · exact ⟨rfl, rfl⟩
  | riseIdle ha => simp [hact] at ha
  | riseAddr | riseData | riseTerminal | riseRestart | riseExtra => omega

/-- Settles O26: the edges before the last only shift; the last one has the two outcomes of `commitEffect`. -/
theorem dataPhaseEdgeShiftsAndTheLastOneCommits : Obligations.DataPhaseEdgeShiftsAndTheLastOneCommits := by
  rintro s b d hact hsck hpos hle rfl
  obtain ⟨t, ht, hcase⟩ := exists_riseCase hsck b
  refine ⟨t, ht, ?_⟩
  cases hcase with
  | riseData _ _ hn =>
    have hlast : s.n ≠ 1 := by omega
    exact ⟨rfl, rfl, rfl, hact, rfl, rfl, rfl, rfl, rfl, rfl, rfl, rfl, fun _ => ⟨rfl, rfl⟩, fun h => absurd h hlast,
      fun h => absurd h hlast⟩
  | riseTerminal _ _ hn _ hd =>
    subst hd
    refine ⟨rfl, rfl, by simp [hn], hact, rfl, rfl, rfl, rfl, rfl, rfl, rfl, rfl, fun h => absurd hn h,
      fun _ hwe e hsel hk => ?_, fun _ hno => ?_⟩
    · simp [commitEffect_of_write hwe hsel hk, hwe]
    · simp [commitEffect_of_no_write hno]
  | riseIdle ha => simp [hact] at ha
  | riseAddr | riseRequest | riseRestart | riseExtra => omega

/-- Settles O27: the two cases of a rising edge with the counter at 0. -/
theorem risingEdgeAfterTheFrameRestartsOrDoesNothing : Obligations.RisingEdgeAfterTheFrameRestartsOrDoesNothing := by
  intro s b hact hsck hn
  obtain ⟨t, ht, hcase⟩ := exists_riseCase hsck b
  refine ⟨t, ht, ?_⟩
  cases hcase with
  | riseRestart _ _ _ hb =>
    exact ⟨rfl, hact, rfl, rfl, rfl, rfl, fun _ => ⟨shiftInitial_frameInit s, rfl⟩, by simp [hb]⟩
  | riseExtra _ _ _ hb =>
    exact ⟨rfl, hact, rfl, rfl, rfl, rfl, by simp [hb], fun _ => ⟨hn, rfl, rfl, rfl, rfl, rfl, rfl, rfl⟩⟩
  | riseIdle ha => simp [hact] at ha
  | riseAddr | riseRequest | riseData | riseTerminal => omega

/-- Settles O28: the local select rises where `selectsLink` holds. -/
theorem fallingEdgeDrivesTheNextBit : Obligations.FallingEdgeDrivesTheNextBit := by
  intro s hact hsck hpos hle
  obtain ⟨t, ht, hcase⟩ := exists_fallCase hsck
  refine ⟨t, ht, ?_⟩
  cases hcase with
  | fallData =>
    rw [← selectsDevice_iff, ← selectsLink_iff]
    exact ⟨rfl, fun v hv => by simp [hv], fun hv => by simp [hv], fun hlink => by simp [hlink], fun hlink => by simp [hlink],
      hact, rfl, rfl, rfl, rfl, rfl, rfl, rfl, rfl, rfl, rfl⟩
  | fallQuiet _ hquiet => exact absurd hquiet (by simp [hact, hle])
  | fallDone => omega

/-- Settles O29: the strobe comes where `groupActive` holds. -/
theorem fallingEdgeAfterTheFrameEndsTheLocalSelect : Obligations.FallingEdgeAfterTheFrameEndsTheLocalSelect := by
  intro s hact hsck hn
  obtain ⟨t, ht, hcase⟩ := exists_fallCase hsck
  refine ⟨t, ht, ?_⟩
  cases hcase with
  | fallDone =>
    rw [← groupActive_iff]
    exact ⟨rfl, rfl, rfl, fun hg => by simp [hg], fun hg => by simp [hg], hact, rfl, hn, rfl, rfl, rfl, rfl, rfl, rfl⟩
  | fallQuiet _ hquiet => exact absurd hquiet (by simp [hact, hn])
  | fallData => omega

/-- Settles O30: a rising edge outside an assertion and the quiet falling edges, of the twelve cases. -/
theorem idleClockEdgesChangeOnlyTheClockLevel : Obligations.IdleClockEdgesChangeOnlyTheClockLevel := by
  intro s
  refine ⟨fun hact hsck b => ?_, fun hact hsck => ?_, fun hact hsck hn => ?_⟩
  · obtain ⟨t, ht, hcase⟩ := exists_riseCase hsck b
    cases hcase with
    | riseIdle => exact ht
    | riseAddr ha | riseRequest ha | riseData ha | riseTerminal ha | riseRestart ha | riseExtra ha => simp [hact] at ha
  · exact applyEvent_quietFall hsck (.inl hact)
  · exact applyEvent_quietFall hsck (.inr ⟨hact, hn⟩)

/-- Settles O31: the chip-select event a change of level stands for is legal, and the clock edge comes second. -/
theorem samplesApplyOneEdge : Obligations.SamplesApplyOneEdge := by
  rintro s csPin sck sdi cs rfl
  refine ⟨fun hne => ?_, fun heq hsck => ?_, fun heq hsck => ?_⟩
  · generalize hcs : (csPin == s.cfg.csActiveLevel) = cs at *
    have hl : legal s (if cs then .csAssert else .csDeassert) = true := by
      cases cs with
      | true => simpa [legal] using hne
      | false => simpa [legal] using hne
    refine ⟨_, applyEvent_of_legal hl, ?_⟩
    simp [onClockEdge, hcs, hne, applyEvent_of_legal hl, withClockLevel]
  · simp [onClockEdge, heq, hsck]
  · simp [onClockEdge, heq, hsck]

end Sys2Proof.Machine
end

section
/-! PROOFS. Laws for the statements of 41_router.md: what each admission check says of the table, when two bindings share an
address, which positions match one, when a list of registrations succeeds, and what drives the serial output. -/

namespace Sys2Proof.Machine

/-! ## The tests on bindings -/

theorem intersects_iff (x y : Binding) :
    intersects x y = true ↔ (patternBits x ^^^ patternBits y) &&& maskBits x &&& maskBits y = 0#7 := beq_iff_eq

/-- Intersecting is symmetric (R113), so the order of the table and of the calls does not matter. -/
theorem intersects_comm (x y : Binding) : intersects x y = intersects y x := by
  rw [intersects, intersects, BitVec.xor_comm, BitVec.and_assoc, BitVec.and_assoc, BitVec.and_comm (maskBits x)]

theorem binds_iff (b : Binding) (a : Addr) : binds b a = true ↔ a &&& maskBits b = patternBits b := beq_iff_eq

theorem patternInMask_iff (b : Binding) : patternInMask b = true ↔ patternBits b &&& ~~~maskBits b = 0#7 := beq_iff_eq

theorem widthOk_iff (b : Binding) : widthOk b = true ↔ b.pattern < 128 ∧ b.mask < 128 := by simp [widthOk]

theorem fanoutOk_iff (b : Binding) : fanoutOk b = true ↔ (b.fanout = true → b.kind = .group) := by
  cases hf : b.fanout <;> simp [fanoutOk, hf]

theorem regParamsOk_iff (b : Binding) : regParamsOk b = true ↔
    (b.kind = .register → b.regKind.isSome = true ∧ (b.regKind ≠ some .ro → b.regReset.isSome = true)) := by
  unfold regParamsOk
  split <;> simp_all

/-- Two patterns that lie in their masks agree on the masks' common bits exactly when some address matches both; the union of
the two patterns is one (R113). -/
theorem exists_common_match_iff {w : Nat} {p q m n : BitVec w} (hp : p &&& ~~~m = 0#w) (hq : q &&& ~~~n = 0#w) :
    (p ^^^ q) &&& m &&& n = 0#w ↔ ∃ a : BitVec w, a &&& m = p ∧ a &&& n = q := by
  constructor
  · intro h
    refine ⟨p ||| q, ?_, ?_⟩ <;>
    · ext i hi
      have hpi := congrArg (·[i]) hp
      have hqi := congrArg (·[i]) hq
      have hagree := congrArg (·[i]) h
      simp only [BitVec.getElem_and, BitVec.getElem_or, BitVec.getElem_xor, BitVec.getElem_not, BitVec.getElem_zero]
        at hpi hqi hagree ⊢
      grind
  · rintro ⟨a, rfl, rfl⟩
    ext i hi
    simp only [BitVec.getElem_and, BitVec.getElem_xor, BitVec.getElem_zero]
    grind

/-! ## The searches for a failing binding or pair -/

theorem firstFailing_eq_none_iff (ok : Binding → Bool) (i : Nat) (bs : List Binding) :
    firstFailing ok i bs = none ↔ ∀ b ∈ bs, ok b = true := by
  induction bs generalizing i with
  | nil => simp [firstFailing]
  | cons b bs ih => cases hb : ok b <;> simp [firstFailing, hb, ih]

theorem firstIntersecting_eq_none_iff (b : Binding) (j : Nat) (bs : List Binding) :
    firstIntersecting b j bs = none ↔ ∀ x ∈ bs, intersects b x = false := by
  induction bs generalizing j with
  | nil => simp [firstIntersecting]
  | cons x xs ih => cases hx : intersects b x <;> simp [firstIntersecting, hx, ih]

theorem firstOverlap_eq_none_iff (i : Nat) (bs : List Binding) :
    firstOverlap i bs = none ↔ bs.Pairwise fun x y => intersects x y = false := by
  induction bs generalizing i with
  | nil => simp [firstOverlap]
  | cons b bs ih =>
    rw [List.pairwise_cons, ← firstIntersecting_eq_none_iff b (i + 1), ← ih (i + 1), firstOverlap]
    cases firstIntersecting b (i + 1) bs <;> simp

theorem groupsFrom_length (i : Nat) (bs : List Binding) :
    (groupsFrom i bs).length = (bs.filter fun b => b.kind = .group).length := by
  induction bs generalizing i with
  | nil => rfl
  | cons b bs ih => by_cases hb : b.kind = .group <;> simp [groupsFrom, hb, ih]

theorem checkGroups_eq_none_iff (c : Config) :
    checkGroups c = none ↔ (c.bindings.filter fun b => b.kind = .group).length ≤ 1 := by
  rw [← groupsFrom_length 0, checkGroups]
  rcases groupsFrom 0 c.bindings with _ | ⟨i, _ | ⟨j, is⟩⟩ <;> simp

/-! ## Admission -/

/-- A configuration is admitted exactly when each check finds nothing (R115, R163). -/
theorem admitted_iff_checks (c : Config) : admitted c = true ↔
    firstOverlap 0 c.bindings = none ∧ firstFailing patternInMask 0 c.bindings = none ∧
    firstFailing widthOk 0 c.bindings = none ∧ firstFailing fanoutOk 0 c.bindings = none ∧ checkGroups c = none ∧
    (1 ≤ c.dataW ∧ c.dataW ≤ 32) ∧ firstFailing regParamsOk 0 c.bindings = none := by
  simp [admitted, configError, checkOverlap, checkPattern, checkWidth, checkFanout, checkDataWidth, checkRegParams]

/-- A configuration with an error builds no machine (R116). -/
theorem powerOn_of_configError {c : Config} {e : ConfigError} (h : configError c = some e) :
    powerOn c = .refused (.configError e) := by
  simp [powerOn, h]

/-- Under a configuration with an error nothing runs (R116, R182). -/
theorem step_of_configError {s : State} {e : ConfigError} (h : configError s.cfg = some e) :
    step s = .refused (.configError e) := by
  simp [step, h]

/-! ## Registration -/

theorem registerEndpoint_of_disjoint {table : List Binding} {b : Binding} (h : ∀ x ∈ table, intersects b x = false) :
    registerEndpoint table b = .ok (table ++ [b]) := by
  rw [registerEndpoint, (firstIntersecting_eq_none_iff b 0 table).2 h]

theorem registerEndpoint_of_overlap {table : List Binding} {b : Binding} (h : ∃ x ∈ table, intersects b x = true) :
    ∃ e, registerEndpoint table b = .error e := by
  obtain ⟨x, hx, hi⟩ := h
  cases hf : firstIntersecting b 0 table with
  | none => simp [(firstIntersecting_eq_none_iff b 0 table).1 hf x hx] at hi
  | some j => exact ⟨.overlap j table.length, by rw [registerEndpoint, hf]⟩

/-- A list of registrations succeeds exactly when its bindings intersect neither the table's nor one another (R114). -/
theorem registerFrom_eq_ok_iff (table bs : List Binding) :
    registerFrom table bs = .ok (table ++ bs) ↔
      (∀ b ∈ bs, ∀ x ∈ table, intersects b x = false) ∧ bs.Pairwise fun x y => intersects x y = false := by
  induction bs generalizing table with
  | nil => simp [registerFrom]
  | cons b bs ih =>
    by_cases h : ∀ x ∈ table, intersects b x = false
    · have hstep : registerFrom table (b :: bs) = registerFrom (table ++ [b]) bs := by
        rw [registerFrom, registerEndpoint_of_disjoint h]
      have hcomm : (∀ x ∈ bs, intersects x b = false) ↔ ∀ x ∈ bs, intersects b x = false := by
        simp only [intersects_comm b]
      rw [hstep, List.append_cons table b bs, ih (table ++ [b])]
      simp only [List.mem_append, or_imp, forall_and, forall_eq, List.mem_cons, List.pairwise_cons,
        hcomm]
      tauto
    · obtain ⟨e, he⟩ := registerEndpoint_of_overlap (table := table) (b := b) (by simpa using h)
      simp [registerFrom, he, h]

theorem registerAll_eq_ok_iff (bs : List Binding) :
    registerAll bs = .ok bs ↔ bs.Pairwise fun x y => intersects x y = false := by
  simpa [registerAll] using registerFrom_eq_ok_iff [] bs

/-! ## Routing -/

/-- The positions that match are those of the bindings that bind the address, in list order (R112). -/
theorem matchesFrom_eq_map_filter (i : Nat) (a : Addr) (bs : List Binding) :
    matchesFrom i a bs = ((bs.zipIdx i).filter fun p => binds p.1 a).map Prod.snd := by
  induction bs generalizing i with
  | nil => rfl
  | cons b bs ih => cases hb : binds b a <;> simp [matchesFrom, hb, ih]

theorem mem_matchesFrom_zero_iff {e : Nat} {a : Addr} {bs : List Binding} :
    e ∈ matchesFrom 0 a bs ↔ ∃ b, bs[e]? = some b ∧ binds b a = true := by
  simp [matchesFrom_eq_map_filter, List.mk_mem_zipIdx_iff_getElem?]

theorem matchesFrom_eq_nil_iff (i : Nat) (a : Addr) (bs : List Binding) :
    matchesFrom i a bs = [] ↔ ∀ b ∈ bs, binds b a = false := by
  induction bs generalizing i with
  | nil => simp [matchesFrom]
  | cons b bs ih => cases hb : binds b a <;> simp [matchesFrom, hb, ih]

/-- Where no two bindings share the address, it has at most one match. -/
theorem matchesFrom_length_le_one {a : Addr} {bs : List Binding} (i : Nat)
    (h : bs.Pairwise fun x y => binds x a = true → binds y a = false) : (matchesFrom i a bs).length ≤ 1 := by
  induction bs generalizing i with
  | nil => simp [matchesFrom]
  | cons b bs ih =>
    obtain ⟨hb, hbs⟩ := List.pairwise_cons.1 h
    by_cases hba : binds b a = true
    · have hnil := (matchesFrom_eq_nil_iff (i + 1) a bs).2 fun x hx => hb x hx hba
      simp [matchesFrom, hba, hnil]
    · simpa [matchesFrom, hba] using ih (i + 1) hbs

/-- In an admitted configuration no two bindings share an address (R113, R115). -/
theorem pairwise_not_binds_of_admitted {c : Config} (h : admitted c = true) (a : Addr) :
    c.bindings.Pairwise fun x y => binds x a = true → binds y a = false := by
  obtain ⟨hoverlap, hpattern, -⟩ := (admitted_iff_checks c).1 h
  have hin := (firstFailing_eq_none_iff patternInMask 0 c.bindings).1 hpattern
  refine ((firstOverlap_eq_none_iff 0 c.bindings).1 hoverlap).imp_of_mem fun {x y} hx hy hxy hxa => ?_
  by_contra hya
  have hcommon : intersects x y = true := by
    rw [intersects_iff, exists_common_match_iff ((patternInMask_iff x).1 (hin x hx)) ((patternInMask_iff y).1 (hin y hy))]
    exact ⟨a, (binds_iff x a).1 hxa, (binds_iff y a).1 (by simpa using hya)⟩
  simp [hcommon] at hxy

/-- With at most one match, `match(a)` is that match (R112). -/
theorem route_eq_some_iff_mem {c : Config} {a : Addr} (h : (matchesFrom 0 a c.bindings).length ≤ 1) (e : Nat) :
    route c a = some e ↔ e ∈ matchesFrom 0 a c.bindings := by
  rw [route]
  generalize matchesFrom 0 a c.bindings = es at h ⊢
  match es, h with
  | [], _  => simp
  | [x], _ => simp [eq_comm]

/-- With at most one match, `match(a)` is `none` only where there is none (R112). -/
theorem route_eq_none_iff_nil {c : Config} {a : Addr} (h : (matchesFrom 0 a c.bindings).length ≤ 1) :
    route c a = none ↔ matchesFrom 0 a c.bindings = [] := by
  rw [Option.eq_none_iff_forall_ne_some, List.eq_nil_iff_forall_not_mem]
  simp only [ne_eq, route_eq_some_iff_mem h]

/-! ## The canonical table -/

/-- The test of R113 on two patterns, each with its mask. -/
def patternsMeet (p q : Nat × Nat) : Bool :=
  ((BitVec.ofNat 7 p.1 ^^^ BitVec.ofNat 7 q.1) &&& BitVec.ofNat 7 p.2 &&& BitVec.ofNat 7 q.2) == 0#7

/-- Intersecting depends on the patterns and masks alone (R113). -/
theorem intersects_eq_patternsMeet (x y : Binding) :
    intersects x y = patternsMeet (x.pattern, x.mask) (y.pattern, y.mask) := rfl

/-- No two rows of the canonical table intersect (R119): their patterns and masks are the board's, checked pair by pair. -/
theorem canonicalBindings_noOverlap (m : AddrMap) (g : Bool) (k : Fin 4 → Option RegKind) (v : Fin 4 → Option Data) :
    firstOverlap 0 (canonicalBindings m g k v) = none := by
  have hmeet : ((canonicalBindings m g k v).map fun b => (b.pattern, b.mask)).Pairwise
      fun p q => patternsMeet p q = false := by
    rw [canonicalBindings_patterns]
    cases m <;> decide
  rw [firstOverlap_eq_none_iff]
  simpa only [intersects_eq_patternsMeet] using List.pairwise_map.1 hmeet

theorem canonicalBindings_patternInMask (m : AddrMap) (g : Bool) (k : Fin 4 → Option RegKind)
    (v : Fin 4 → Option Data) : firstFailing patternInMask 0 (canonicalBindings m g k v) = none := by
  have hin : ∀ p ∈ (canonicalBindings m g k v).map fun b => (b.pattern, b.mask),
      BitVec.ofNat 7 p.1 &&& ~~~BitVec.ofNat 7 p.2 = 0#7 := by
    rw [canonicalBindings_patterns]
    cases m <;> decide
  exact (firstFailing_eq_none_iff _ _ _).2 fun b hb => (patternInMask_iff b).2 (List.forall_mem_map.1 hin b hb)

theorem canonicalBindings_widthOk (m : AddrMap) (g : Bool) (k : Fin 4 → Option RegKind) (v : Fin 4 → Option Data) :
    firstFailing widthOk 0 (canonicalBindings m g k v) = none := by
  cases m <;> rfl

/-- Only the Group row can carry the fan-out flag (R118). -/
theorem canonicalBindings_fanoutOk (m : AddrMap) (g : Bool) (k : Fin 4 → Option RegKind) (v : Fin 4 → Option Data) :
    firstFailing fanoutOk 0 (canonicalBindings m g k v) = none := by
  cases m <;> cases g <;> rfl

/-- The canonical table has one Group binding, at position 12, or none (R118). -/
theorem groupsFrom_canonicalBindings (m : AddrMap) (g : Bool) (k : Fin 4 → Option RegKind) (v : Fin 4 → Option Data) :
    groupsFrom 0 (canonicalBindings m g k v) = match m with | .group => [12] | .mezz => [] := by
  cases m <;> rfl

/-- With complete register parameters the Register rows pass their check, and the other rows have none to pass (R115, R118). -/
theorem canonicalBindings_regParamsOk (m : AddrMap) (g : Bool) {k : Fin 4 → Option RegKind} {v : Fin 4 → Option Data}
    (h : ∀ r, (k r).isSome = true ∧ (k r ≠ some .ro → (v r).isSome = true)) :
    firstFailing regParamsOk 0 (canonicalBindings m g k v) = none := by
  have hregister (name : String) (pattern : Nat) (r : Fin 4) :
      regParamsOk (registerRow name pattern (k r) (v r)) = true := (regParamsOk_iff _).2 fun _ => h r
  rw [firstFailing_eq_none_iff, canonicalBindings, List.append_assoc, List.forall_mem_append]
  refine ⟨?_, (firstFailing_eq_none_iff regParamsOk 4 _).1 (by cases m <;> rfl)⟩
  simp [registerRows, hregister]

/-! ## The serial output -/

/-- A Register selection is no device (R109, R136). -/
theorem not_selectsDevice_of_register {s : State} (h : selects s .register) : ¬ selectsDevice s := by
  intro hdev
  obtain ⟨e, hsel, hk⟩ := (Option.any_eq_true _ _).1 h
  simp [selectsDevice, hsel, not_hasLink_of_register (of_decide_eq_true hk)] at hdev

/-- A registered output bit comes from the chain of a Register selection (R29, R30, R123). -/
theorem selects_register_of_sdoQ {s : State} (hinv : Inv s) (hq : s.sdoQ.isSome = true) : selects s .register := by
  obtain ⟨-, -, -, -, -, hchain, -, hout, -⟩ := hinv
  exact hchain.1 (hout hq)

/-- A Register selection has no local select (R31, R123). -/
theorem lcs_false_of_register {s : State} (hinv : Inv s) (h : selects s .register) : s.lcs = false := by
  obtain ⟨-, -, -, -, -, -, hlink, -⟩ := hinv
  exact Bool.eq_false_iff.2 fun hlcs => not_selectsDevice_of_register h (hlink hlcs).2

theorem extCs_iff (s : State) (e : Nat) : extCs s e = true ↔ s.act = true ∧ s.lcs = true ∧ s.sel = some e := by
  simp [extCs, and_assoc]

/-- While a device's select is active, `sdo` is what the device drives (R122). -/
theorem sdo_of_extCs {s : State} {e : Nat} (hinv : Inv s) (h : extCs s e = true) : sdo s = some (extSdoLevel s e) := by
  obtain ⟨-, -, -, -, -, -, hlink, -⟩ := hinv
  obtain ⟨hact, hlcs, hsel⟩ := (extCs_iff s e).1 h
  have hdev : hasLink s.cfg e = true := by simpa [selectsDevice, hsel] using (hlink hlcs).2
  simp [sdo, muxOut, hact, hlcs, hsel, hdev]

end Sys2Proof.Machine
end

section
/-! PROOFS. The statements of 41_router.md settled. -/

namespace Sys2Proof.Machine

/-- Settles O3: each of the searches and counts of the admission finds nothing exactly when its check of R115 holds. -/
theorem admissionIsTheSevenChecks : Obligations.AdmissionIsTheSevenChecks := by
  intro c
  rw [admitted_iff_checks, firstOverlap_eq_none_iff, checkGroups_eq_none_iff]
  simp only [firstFailing_eq_none_iff, patternInMask_iff, widthOk_iff, fanoutOk_iff, regParamsOk_iff]
  tauto

/-- Settles O6: by the bitwise law of the common matches. -/
theorem intersectionTestFindsExactlyTheCommonAddresses : Obligations.IntersectionTestFindsExactlyTheCommonAddresses := by
  intro x y hx hy
  have h := exists_common_match_iff ((patternInMask_iff x).1 hx) ((patternInMask_iff y).1 hy)
  simp only [intersects_iff, binds_iff]
  exact ⟨h, h⟩

/-- Settles O7: a list registers exactly when it is pairwise disjoint, and that does not depend on its order. -/
theorem registrationFailsExactlyOnOverlap : Obligations.RegistrationFailsExactlyOnOverlap := by
  refine ⟨fun table b => ⟨registerEndpoint_of_overlap, registerEndpoint_of_disjoint⟩, fun bs bs' hperm h => ?_⟩
  rw [registerAll_eq_ok_iff] at h ⊢
  exact (hperm.pairwise_iff fun {x y} hxy => (intersects_comm y x).trans hxy).1 h

/-- Settles O8: an admitted table has at most one match for an address, so routing answers it where there is one. -/
theorem routingFindsTheOneBinding : Obligations.RoutingFindsTheOneBinding := by
  intro c a hadm
  have hone := matchesFrom_length_le_one 0 (pairwise_not_binds_of_admitted hadm a)
  refine ⟨fun e => ?_, ?_⟩
  · rw [route_eq_some_iff_mem hone, mem_matchesFrom_zero_iff]
  · rw [route_eq_none_iff_nil hone, matchesFrom_eq_nil_iff]

/-- Settles O10: the patterns and masks of the table are constants, and the register parameters are complete by hypothesis. -/
theorem canonicalTableIsAdmitted : Obligations.CanonicalTableIsAdmitted := by
  intro c g k v hb hlo hhi hparams
  have hgroups : checkGroups c = none := by
    rw [checkGroups, hb, groupsFrom_canonicalBindings]
    cases c.addrMap <;> rfl
  rw [admitted_iff_checks, hb]
  exact ⟨canonicalBindings_noOverlap _ _ _ _, canonicalBindings_patternInMask _ _ _ _, canonicalBindings_widthOk _ _ _ _,
    canonicalBindings_fanoutOk _ _ _ _, hgroups, ⟨hlo, hhi⟩, canonicalBindings_regParamsOk _ _ hparams⟩

/-- Settles O38: the output bit comes from a Register's chain, the local select from a device, and a binding is one kind. -/
theorem serialOutputHasOneDriver : Obligations.SerialOutputHasOneDriver := by
  intro s hinv
  refine ⟨fun hq => ?_, fun e hcs => ⟨?_, sdo_of_extCs hinv hcs⟩⟩
  · have hreg := selects_register_of_sdoQ hinv hq
    exact ⟨lcs_false_of_register hinv hreg, hreg⟩
  · obtain ⟨-, hlcs, -⟩ := (extCs_iff s e).1 hcs
    by_contra hq
    have hreg := selects_register_of_sdoQ hinv (Option.isSome_iff_ne_none.2 hq)
    simp [lcs_false_of_register hinv hreg] at hlcs

/-- Settles O49: the law of a whole transaction, with nothing selected. -/
theorem unmatchedFrameReachesNoEndpoint : Obligations.UnmatchedFrameReachesNoEndpoint := by
  intro s i hact hadm hroute
  have hclock := flatMap_linkClock_none s.cfg (m := none) rfl (msbFirst s.cfg.dataW i.data)
  have hexec := xfer_of_idle i.addr i.we i.data hact (admitted_width hadm) hroute (i := s.lastIndex) rfl (v := none) rfl
  rw [exec_eq_xfer, hexec]
  simp only [hclock, seenBits_silent, List.append_assoc, List.replicate_append_replicate]
  simp [afterFrame, Config.frameLen, endRegs, endLatch, endCommit, endStrobe, groupSelected, linkRise, linkFall]

/-- Settles O2: power-on and step look for the configuration's error first. -/
theorem unadmittedConfigurationNeverRuns : Obligations.UnadmittedConfigurationNeverRuns := by
  rintro c e h
  refine ⟨powerOn_of_configError h, ?_⟩
  rintro s rfl
  exact step_of_configError h

end Sys2Proof.Machine
end

section
/-! PROOFS. Laws for the statements of 42_register_endpoint.md: what the terminal edge commits to a Register binding, and a
whole transaction to one. -/

namespace Sys2Proof.Machine

/-! ## The commit to a Register binding -/

/-- A frame with `we = 1` to a Register binding commits its data (R97, R128). -/
theorem endRegs_of_write {c : Config} {e : Nat} (hk : kindOf c e = some .register) (regs : List (Nat × Data)) (d : Data) :
    endRegs c regs (some e) true d = committedRegs c regs e d := by simp [endRegs, hk]

/-- A frame with `we = 0` records no commit (R97). -/
theorem endCommit_of_read (c : Config) (m : Option Nat) (d : Data) : endCommit c m false d = [] := by
  cases m <;> simp [endCommit]

/-- A frame with `we = 1` to a Register binding records its commit (R97, R104). -/
theorem endCommit_of_write {c : Config} {e : Nat} (hk : kindOf c e = some .register) (d : Data) :
    endCommit c (some e) true d = [.writeCommit e d] := by simp [endCommit, hk]

/-- A register with a stored value holds what was committed to it (R128). -/
theorem regGet_committedRegs_same {c : Config} {e : Nat} (h : regKindOf c e = some .rw ∨ regKindOf c e = some .wo)
    (regs : List (Nat × Data)) (d : Data) : regGet (committedRegs c regs e d) e = d := by
  rcases h with h | h <;> simp [committedRegs, h]

/-! ## A transaction to a Register binding -/

/-- A whole transaction from an idle state to a Register binding, for either value of `we` (R131, R132): the master gets the
read value, the terminal edge commits what `we` asks for, and no device, index or latch line takes part. -/
theorem exec_of_register {s : State} {i : Instr} {e : Nat} (hact : s.act = false)
    (hN : 1 ≤ s.cfg.dataW ∧ s.cfg.dataW ≤ 32) (hroute : route s.cfg i.addr = some e)
    (hk : kindOf s.cfg e = some .register) :
    exec i s = .next
      { afterFrame s with
        regs := endRegs s.cfg s.regs (some e) i.we (fitData s.cfg.dataW i.data)
        history := s.history ++ (.readRequest i.addr i.we (some e) :: .frameComplete i.addr i.we (fitData s.cfg.dataW i.data) ::
                     endCommit s.cfg (some e) i.we (fitData s.cfg.dataW i.data))
        sdoSeen := s.sdoSeen ++ List.replicate 8 none ++ (msbFirst s.cfg.dataW (readValueAt s e (s.draws + 7))).map some
        draws := s.draws + s.cfg.frameLen } := by
  have hlink : hasLink s.cfg e = false := not_hasLink_of_register hk
  have hgroup : groupSelected s.cfg (some e) = false := by simp [groupSelected, hk]
  have hindex := loadedIndex_of_not_group (c := s.cfg) (e := e) (by simp [hk]) s.lastIndex i.addr
  have hload : loadedSout { s with draws := s.draws + 7 } (some e) = some (readValueAt s e (s.draws + 7)) :=
    loadedSout_of_register hk
  rw [exec_eq_xfer, xfer_of_idle i.addr i.we i.data hact hN hroute hindex hload, seenBits_chain (m := some e) _ _ _ hlink,
    flatMap_linkClock_register hk]
  simp [afterFrame, endLatch, endStrobe, hgroup, linkRise, linkFall, hlink]

end Sys2Proof.Machine
end

section
/-! PROOFS. The statements of 42_register_endpoint.md settled. -/

namespace Sys2Proof.Machine

/-- Settles O45: the law of a transaction to a Register binding, where `we = 0` commits nothing. -/
theorem registerReadReturnsTheValue : Obligations.RegisterReadReturnsTheValue := by
  intro s i e hact hadm hwe
  refine ⟨?row, fun hroute hk => ?_⟩
  case row =>
    rintro hi r d rfl hc
    exact route_registerRow hc hi r
  rw [exec_of_register hact (admitted_width hadm) hroute hk, hwe, endRegs_of_read, endCommit_of_read]
  rfl

/-- Settles O46: the law of a transaction to a Register binding, where `we = 1` commits the data. -/
theorem registerWriteCommitsTheData : Obligations.RegisterWriteCommitsTheData := by
  rintro s i v e hact hadm hwe rfl
  refine ⟨?row, fun hroute hk => ⟨_, exec_of_register hact (admitted_width hadm) hroute hk, ?_⟩⟩
  case row =>
    rintro hi r d rfl hc
    exact route_registerRow hc hi r
  rw [hwe, endRegs_of_write hk, endCommit_of_write hk]
  exact ⟨rfl, fun hstored => ⟨regGet_committedRegs_same hstored _ _, fun e' he => regGet_committedRegs_other _ _ _ he⟩,
    fun hro => committedRegs_of_not_stored (by simp [hro]) _ _⟩

end Sys2Proof.Machine
end

section
/-! PROOFS. Laws for the statements of 43_passthrough_endpoint.md: when a device's lines are active and when its select can
change, the pass-through rows of the canonical table, and a whole transaction to a device. -/

namespace Sys2Proof.Machine

/-! ## The lines of a device -/

theorem extCs_eq_false_iff (s : State) (e : Nat) :
    extCs s e = false ↔ (s.act = true → s.lcs = true → s.sel ≠ some e) := by
  rw [Bool.eq_false_iff, ne_eq, extCs_iff]
  tauto

/-- A fan-out data line carries `sdi` whatever is selected (R139, D30). -/
theorem extSdi_of_fanout {s : State} {e : Nat} (h : fanoutOf s.cfg e = true) (sdi : Bool) : extSdi s e sdi = sdi := by
  simp [extSdi, h]

/-- While its select is active a device gets the engine's clock and data (R138, R139). -/
theorem lines_of_extCs {s : State} {e : Nat} (h : extCs s e = true) :
    extSck s e = s.sckQ ∧ ∀ sdi, extSdi s e sdi = sdi := by
  simp [extSck, extSdi, h]

/-- While its select is inactive a device gets no clock, and no data without fan-out (R138, R139, D30). -/
theorem lines_of_not_extCs {s : State} {e : Nat} (h : extCs s e = false) :
    extSck s e = false ∧ (fanoutOf s.cfg e = false → ∀ sdi, extSdi s e sdi = false) := by
  simp +contextual [extSck, extSdi, h]

/-- In the ADDR phase the local select is inactive (R31, R137). -/
theorem lcs_false_of_addrPhase {s : State} (hinv : Inv s) (hn : s.cfg.dataW < s.n) : s.lcs = false := by
  obtain ⟨-, -, haddr, -⟩ := hinv
  obtain ⟨-, -, -, -, hlcs⟩ := haddr hn
  exact hlcs

/-- Within an assertion the local select is inactive before the first falling edge of the DATA phase and from the first one
of the DONE phase on (R136, R137, D11, D12). -/
theorem lcs_false_of_outside {s : State} (hinv : Inv s) (hact : s.act = true)
    (h : s.cfg.dataW < s.n ∨ s.n = s.cfg.dataW ∧ s.sckQ = true ∨ s.n = 0 ∧ s.sckQ = false) : s.lcs = false := by
  rcases h with hn | ⟨hn, hsck⟩ | ⟨hn, hsck⟩
  · exact lcs_false_of_addrPhase hinv hn
  · obtain ⟨-, -, -, -, -, -, -, -, -, -, hearly, -⟩ := hinv
    exact hearly ⟨hsck, hn⟩
  · obtain ⟨-, -, -, -, -, -, -, -, -, -, -, hquiet, -⟩ := hinv
    exact (hquiet ⟨hact, hsck, hn⟩).1

/-- From the first falling edge of the DATA phase to the last rising edge the selected device's select is active (R136,
R137). -/
theorem extCs_of_dataPhase {s : State} {e : Nat} (hinv : Inv s) (hact : s.act = true) (hsel : s.sel = some e)
    (hlink : hasLink s.cfg e = true) (hpos : 0 < s.n)
    (h : s.n < s.cfg.dataW ∨ s.n = s.cfg.dataW ∧ s.sckQ = false) : extCs s e = true := by
  obtain ⟨-, -, -, -, -, -, -, -, -, hready, -⟩ := hinv
  have hlcs : s.lcs = true :=
    (hready ⟨hact, hpos, by omega, by tauto⟩).2 (by simpa [selectsDevice, hsel] using hlink)
  exact (extCs_iff s e).2 ⟨hact, hlcs, hsel⟩

/-- The events that can change a local select line (R142). -/
theorem extCs_changes {ev : Ev} {s t : State} {e : Nat} (hinv : Inv s) (h : applyEvent ev s = .next t)
    (hne : extCs t e ≠ extCs s e) :
    s.act = true ∧ (ev = .sckFall ∧ s.n ≤ s.cfg.dataW ∨ ev = .csDeassert ∨
      (∃ b, ev = .sckRise b) ∧ s.n = 0 ∧ s.cfg.backToBack = true) := by
  cases applyEvent_cases h with
  | fallData hact _ _ hn => exact ⟨hact, .inl ⟨rfl, hn⟩⟩
  | fallDone hact _ hn => exact ⟨hact, .inl ⟨rfl, by omega⟩⟩
  | deassert hact => exact ⟨hact, .inr (.inl rfl)⟩
  | riseRestart hact _ hn hb => exact ⟨hact, .inr (.inr ⟨⟨_, rfl⟩, hn, hb⟩)⟩
  | assert hact => simp [extCs, hact] at hne
  | riseRequest _ _ hn => simp [extCs, lcs_false_of_addrPhase hinv (by omega)] at hne
  | riseIdle | riseAddr | riseData | riseTerminal | riseExtra | fallQuiet => exact absurd rfl hne

/-! ## The pass-through rows of the canonical table -/

/-- The values of `addr[3:2]` that select pass-through channels under an address map (R51, R80). -/
abbrev IsPassThroughRegion (m : AddrMap) (region : BitVec 2) : Prop :=
  region = 0b01#2 ∨ region = 0b10#2 ∨ region = 0b11#2 ∧ m = .mezz

/-- The pass-through rows stand at the position of their nibble (R51, R79): checked address by address. -/
theorem canonical_passThroughRow {m : AddrMap} (hi : BitVec 3) {region : BitVec 2} (c : BitVec 2)
    (hregion : IsPassThroughRegion m region) :
    canonicalPosition m (addrOf hi region c) = 4 * region.toNat + c.toNat ∧
      canonicalKind m (addrOf hi region c) = .passThrough := by
  cases m <;> (revert hi region c; decide)

/-- Under the canonical table the pass-through rows select the channel of their number. -/
theorem route_passThroughRow {cfg : Config} (hc : CanonicalTable cfg) (hi : BitVec 3) {region : BitVec 2} (c : BitVec 2)
    (hregion : IsPassThroughRegion cfg.addrMap region) :
    route cfg (addrOf hi region c) = some (4 * region.toNat + c.toNat) ∧
      kindOf cfg (4 * region.toNat + c.toNat) = some .passThrough := by
  obtain ⟨hpos, hkind⟩ := canonical_passThroughRow hi c hregion
  rw [← hpos, kindOf_of_canonicalTable hc, hkind]
  exact ⟨route_of_canonicalTable hc _, rfl⟩

/-- Each region holds four rows of the canonical table in the order of their numbers (R118). -/
theorem canonicalNames_getElem? {m : AddrMap} {region : BitVec 2} {names : List String}
    (h : ((canonicalNames m).drop (4 * region.toNat)).take 4 = names) (c : BitVec 2) :
    (canonicalNames m)[4 * region.toNat + c.toNat]? = names[c.toNat]? := by
  rw [← h, List.getElem?_take_of_lt c.isLt, List.getElem?_drop]

/-! ## A transaction to a device -/

/-- A frame to a device records no commit (R97). -/
theorem endCommit_of_not_register {c : Config} {e : Nat} (h : kindOf c e ≠ some .register) (we : Bool) (d : Data) :
    endCommit c (some e) we d = [] := by simp [endCommit, h]

/-- A whole transaction from an idle state to a PassThrough or Group binding, for either value of `we` (R136 to R141): the
device gets the data and the master the device's bits; the index, the latch bus and the strobe are the Group binding's. -/
theorem exec_of_link {s : State} {i : Instr} {e : Nat} (hact : s.act = false)
    (hN : 1 ≤ s.cfg.dataW ∧ s.cfg.dataW ≤ 32) (hroute : route s.cfg i.addr = some e) (hlink : hasLink s.cfg e = true)
    {x : BitVec 2} (hindex : loadedIndex s.cfg s.lastIndex i.addr (some e) = x) :
    exec i s = .next
      { afterFrame s with
        lastIndex := x
        latch := endLatch s.cfg (some e) 0#4 x
        history := s.history ++ [.readRequest i.addr i.we (some e),
                                 .frameComplete i.addr i.we (fitData s.cfg.dataW i.data)] ++
                     endStrobe s.cfg (some e) x
        sdoSeen := s.sdoSeen ++ List.replicate 8 none ++ deviceBits s e (s.draws + 8) s.cfg.dataW
        draws := s.draws + s.cfg.frameLen
        downstream := s.downstream ++ [.csRise e] ++ (msbFirst s.cfg.dataW i.data).map (.clock e) ++ [.csFall e] } := by
  have hk := kindOf_ne_of_hasLink hlink
  rw [exec_eq_xfer, xfer_of_idle i.addr i.we i.data hact hN hroute hindex rfl, seenBits_device s _ hlink,
    flatMap_linkClock _ hlink, endRegs_of_not_register hk, endCommit_of_not_register hk]
  simp [afterFrame, linkRise, linkFall, hlink]

end Sys2Proof.Machine
end

section
/-! PROOFS. The statements of 43_passthrough_endpoint.md settled. -/

namespace Sys2Proof.Machine

/-- Settles O37: the invariant says where the local select is active, an event changes it only at its ends, and the clock
and data lines follow the select and the fan-out. -/
theorem localSelectLinesDoNotGlitch : Obligations.LocalSelectLinesDoNotGlitch := by
  intro s t ev e hinv h
  refine ⟨extCs_changes hinv h, fun hout => ?_, extCs_of_dataPhase hinv, lines_of_not_extCs, lines_of_extCs,
    extSdi_of_fanout⟩
  rw [extCs_eq_false_iff]
  intro hact hlcs
  rcases hout with hsel | hout
  · exact hsel
  · simp [lcs_false_of_outside hinv hact hout] at hlcs

/-- Settles O47: the law of a transaction to a device, where a PassThrough binding moves neither index nor latch bus. -/
theorem passThroughTransfersRelayTheData : Obligations.PassThroughTransfersRelayTheData := by
  intro s i e hact hadm
  refine ⟨fun hc c region names hrow => ?row, fun hroute hk => ?_⟩
  case row =>
    obtain ⟨hi, haddr, hregion, hnames⟩ : ∃ hi, i.addr = addrOf hi region c ∧
        IsPassThroughRegion s.cfg.addrMap region ∧
        ((canonicalNames s.cfg.addrMap).drop (4 * region.toNat)).take 4 = names := by
      rcases hrow with ⟨⟨hi, we, d, rfl⟩, rfl, rfl⟩ | ⟨⟨hi, we, d, rfl⟩, rfl, rfl⟩ |
        ⟨⟨hi, we, d, rfl⟩, hmap, rfl, rfl⟩
      · exact ⟨hi, rfl, .inl rfl, rfl⟩
      · exact ⟨hi, rfl, .inr (.inl rfl), rfl⟩
      · exact ⟨hi, rfl, .inr (.inr ⟨rfl, hmap⟩), by rw [hmap]; rfl⟩
    obtain ⟨hroute, hkind⟩ := route_passThroughRow hc hi c hregion
    exact ⟨haddr ▸ hroute, hkind, canonicalNames_getElem? hnames c⟩
  have hgroup : groupSelected s.cfg (some e) = false := by simp [groupSelected, hk]
  have hindex := loadedIndex_of_not_group (c := s.cfg) (e := e) (by simp [hk]) s.lastIndex i.addr
  rw [exec_of_link hact (admitted_width hadm) hroute (hasLink_of_passThrough hk) hindex]
  simp [afterFrame, endLatch, endStrobe, hgroup]

end Sys2Proof.Machine
end

section
/-! PROOFS. Laws for the statements of 44_group_endpoint.md: what one bus event does to the latch bus and to the sub-target
index, the group row of the canonical table, and a whole transaction to the Group binding. -/

namespace Sys2Proof.Machine

/-! ## The latch bus -/

/-- The event starts a frame: an assertion, or the idle clock of a back-to-back block (R93, R98). -/
abbrev StartsFrame (s : State) (ev : Ev) : Prop :=
  ev = .csAssert ∨ (∃ b, ev = .sckRise b) ∧ s.act = true ∧ s.n = 0 ∧ s.cfg.backToBack = true

/-- The event ends a completed group frame: the first falling edge after it, or a deassertion in its place (R94, R101). -/
abbrev EndsGroupFrame (s : State) (ev : Ev) : Prop :=
  (ev = .sckFall ∨ ev = .csDeassert) ∧ s.act = true ∧ s.n = 0 ∧ groupActive s = true

/-- An event leaves the latch bus, or clears it at a frame's start, or strobes the line of the frame's index at the end of a
group frame (R154, R155, D15, D16). -/
theorem applyEvent_latch {ev : Ev} {s t : State} (h : applyEvent ev s = .next t) :
    t.latch = s.latch ∨
    StartsFrame s ev ∧ t.latch = 0#4 ∨
    EndsGroupFrame s ev ∧ t.latch = setLatchLine s.latch s.lastIndex ∧
      t.history = s.history ++ [.latchStrobe s.lastIndex] := by
  cases applyEvent_cases h with
  | assert => exact .inr (.inl ⟨.inl rfl, rfl⟩)
  | riseRestart ha _ hn hb => exact .inr (.inl ⟨.inr ⟨⟨_, rfl⟩, ha, hn, hb⟩, rfl⟩)
  | deassert ha =>
    by_cases hstrobe : s.n = 0 ∧ groupActive s = true
    · exact .inr (.inr ⟨⟨.inr rfl, ha, hstrobe⟩, if_pos hstrobe, by simp [hstrobe]⟩)
    · exact .inl (if_neg hstrobe)
  | fallDone ha _ hn =>
    by_cases hg : groupActive s = true
    · exact .inr (.inr ⟨⟨.inl rfl, ha, hn, hg⟩, if_pos hg, by simp [hg]⟩)
    · exact .inl (if_neg hg)
  | riseIdle | riseAddr | riseRequest | riseData | riseTerminal | riseExtra | fallQuiet | fallData => exact .inl rfl

/-- From a low latch bus a strobe leaves exactly its own line high (R154). -/
theorem setLatchLine_zero (i : BitVec 2) : setLatchLine 0#4 i = 1#4 <<< i.toNat := BitVec.zero_or

/-! ## The sub-target index -/

/-- The read-request changes the index only for the Group binding, and then to the address's two low bits (R96, R150). -/
theorem loadedIndex_of_ne {c : Config} {old : BitVec 2} {a : Addr} {m : Option Nat} (h : loadedIndex c old a m ≠ old) :
    m.any (fun e => kindOf c e = some .group) = true ∧ loadedIndex c old a m = addrIndex a := by
  suffices hgroup : m.any (fun e => kindOf c e = some .group) = true from ⟨hgroup, loadedIndex_of_group hgroup old a⟩
  cases m with
  | none => exact absurd rfl h
  | some e =>
    by_contra hk
    exact h (loadedIndex_of_not_group (by simpa using hk) old a)

/-! ## A transaction to the Group binding -/

/-- Under GROUP the group row stands at position 12 (R51, R79): checked address by address. -/
theorem canonical_groupRow (hi : BitVec 3) (sub : BitVec 2) :
    canonicalPosition .group (addrOf hi 0b11#2 sub) = 12 ∧ canonicalKind .group (addrOf hi 0b11#2 sub) = .group := by
  revert hi sub; decide

/-- Under the canonical table and GROUP the group row selects the Group binding. -/
theorem route_groupRow {c : Config} (hc : CanonicalTable c) (hmap : c.addrMap = .group) (hi : BitVec 3) (sub : BitVec 2) :
    route c (addrOf hi 0b11#2 sub) = some 12 ∧ kindOf c 12 = some .group := by
  obtain ⟨hpos, hkind⟩ := canonical_groupRow hi sub
  rw [← hmap] at hpos hkind
  rw [← hpos, kindOf_of_canonicalTable hc, hkind]
  exact ⟨route_of_canonicalTable hc _, rfl⟩

/-- A group frame ends with the line of its index high (R154). -/
theorem endLatch_of_group {c : Config} {e : Nat} (hk : kindOf c e = some .group) (l : BitVec 4) (i : BitVec 2) :
    endLatch c (some e) l i = setLatchLine l i := by simp [endLatch, groupSelected, hk]

/-- A group frame ends with one strobe recorded (R154). -/
theorem endStrobe_of_group {c : Config} {e : Nat} (hk : kindOf c e = some .group) (i : BitVec 2) :
    endStrobe c (some e) i = [.latchStrobe i] := by simp [endStrobe, groupSelected, hk]

end Sys2Proof.Machine
end

section
/-! PROOFS. The statements of 44_group_endpoint.md settled. -/

namespace Sys2Proof.Machine

/-- Settles O34: of the three things an event does to the latch bus, only the strobe raises a line and only the clear lowers
one. -/
theorem latchLinesRiseOnlyAtTheEndOfAGroupFrame : Obligations.LatchLinesRiseOnlyAtTheEndOfAGroupFrame := by
  intro s t ev i h
  rcases applyEvent_latch h with hsame | ⟨hstart, hzero⟩ | ⟨⟨hev, ha, hn, hg⟩, hset, hhist⟩
  · simp +contextual [hsame]
  · refine ⟨fun _ hrise => ?_, fun _ _ => ⟨hzero, hstart⟩⟩
    simp [hzero] at hrise
  · obtain ⟨hlcs, hsel⟩ := (groupActive_iff s).1 hg
    have hbit : t.latch.getLsbD i = (s.latch.getLsbD i || decide (i = s.lastIndex.toNat)) := by
      rw [hset, setLatchLine_bit]
    refine ⟨fun hlow hrise => ?_, fun hhigh hfall => ?_⟩
    · exact ⟨hev, ha, hn, hlcs, hsel, by simpa [hbit, hlow] using hrise, hhist⟩
    · simp [hbit, hhigh] at hfall

/-- Settles O35: only the read-request edge loads the index, and it keeps the old one for any other binding. -/
theorem indexChangesOnlyAtAGroupReadRequest : Obligations.IndexChangesOnlyAtAGroupReadRequest := by
  intro s t ev h hne
  cases applyEvent_cases h with
  | riseRequest ha _ hn hh =>
    subst hh
    obtain ⟨hgroup, hindex⟩ := loadedIndex_of_ne hne
    exact ⟨_, rfl, ha, hn, hgroup, hindex⟩
  | assert | deassert | riseIdle | riseAddr | riseData | riseTerminal | riseRestart | riseExtra | fallQuiet | fallData
  | fallDone => exact absurd rfl hne

/-- Settles O48: the law of a transaction to a device, where the Group binding takes the index and strobes its line. -/
theorem groupTransferStrobesItsLine : Obligations.GroupTransferStrobesItsLine := by
  intro s i e hact hadm
  refine ⟨?row, fun hroute hk => ?_⟩
  case row =>
    rintro hi x we d rfl hc hmap
    obtain ⟨hroute, hkind⟩ := route_groupRow hc hmap hi x
    exact ⟨hroute, hkind, addrIndex_addrOf hi 0b11#2 x⟩
  have hindex : loadedIndex s.cfg s.lastIndex i.addr (some e) = addrIndex i.addr := loadedIndex_of_group (by simp [hk]) _ _
  rw [exec_of_link hact (admitted_width hadm) hroute (hasLink_of_group hk) hindex, endLatch_of_group hk,
    endStrobe_of_group hk, setLatchLine_zero]
  simp

end Sys2Proof.Machine
end

section
/-! PROOFS. Laws for the statements of 60_exceptions.md: when the cause of each error code holds and what the check with that
code reports, which failing check a configuration error comes from, and which runs of events the two levels allow. -/

namespace Sys2Proof.Machine

/-! ## The searches, as the library's -/

theorem firstFailing_eq_findIdx? (ok : Binding → Bool) (i : Nat) (bs : List Binding) :
    firstFailing ok i bs = (bs.findIdx? fun b => !ok b).map (i + ·) := by
  induction bs generalizing i with
  | nil => rfl
  | cons b bs ih =>
    cases hb : ok b <;>
      simp [firstFailing, List.findIdx?_cons, hb, ih, Function.comp_def, Nat.add_assoc, Nat.add_comm 1]

theorem firstIntersecting_eq_findIdx? (b : Binding) (j : Nat) (bs : List Binding) :
    firstIntersecting b j bs = (bs.findIdx? (intersects b)).map (j + ·) := by
  induction bs generalizing j with
  | nil => rfl
  | cons x xs ih =>
    cases hx : intersects b x <;>
      simp [firstIntersecting, List.findIdx?_cons, hx, ih, Function.comp_def, Nat.add_assoc, Nat.add_comm 1]

theorem groupsFrom_eq_findIdxs (i : Nat) (bs : List Binding) :
    groupsFrom i bs = bs.findIdxs (fun b => b.kind = .group) i := by
  induction bs generalizing i with
  | nil => rfl
  | cons b bs ih => by_cases hb : b.kind = .group <;> simp [groupsFrom, hb, ih]

theorem firstFailing_eq_some {ok : Binding → Bool} {k : Nat} {bs : List Binding} (h : firstFailing ok 0 bs = some k) :
    ∃ b, bs[k]? = some b ∧ ok b = false := by
  simp only [firstFailing_eq_findIdx?, Nat.zero_add, Option.map_id', List.findIdx?_eq_some_iff_getElem] at h
  obtain ⟨hk, hfail, -⟩ := h
  exact ⟨bs[k], List.getElem?_eq_getElem hk, by simpa using hfail⟩

/-- The pair `(i, j)` intersects and comes first in the order of the smallest `i`, then the smallest `j` (D41). -/
structure IsFirstOverlap (bs : List Binding) (i j : Nat) : Prop where
  lt : i < j
  meets : ∃ x y, bs[i]? = some x ∧ bs[j]? = some y ∧ intersects x y = true
  first : ∀ (i' j' : Nat) (x y : Binding), i' < j' → bs[i']? = some x → bs[j']? = some y → intersects x y = true →
    i < i' ∨ i = i' ∧ j ≤ j'

/-- Where the head of the table intersects a later binding, its pair with the earliest such binding comes first. -/
theorem isFirstOverlap_head {b : Binding} {bs : List Binding} {m : Nat} (h : bs.findIdx? (intersects b) = some m) :
    IsFirstOverlap (b :: bs) 0 (m + 1) := by
  obtain ⟨hm, hmeet, hmin⟩ := List.findIdx?_eq_some_iff_getElem.1 h
  refine ⟨Nat.succ_pos m, ⟨b, bs[m], rfl, List.getElem?_eq_getElem hm, hmeet⟩, fun i' j' x y hlt hx hy hxy => ?_⟩
  rcases i' with _ | i'
  · obtain ⟨j', rfl⟩ := Nat.exists_eq_succ_of_ne_zero hlt.ne'
    cases hx
    obtain ⟨hj, rfl⟩ := List.getElem?_eq_some_iff.1 hy
    exact .inr ⟨rfl, Nat.succ_le_succ (Nat.le_of_not_lt fun hj' => hmin j' hj' hxy)⟩
  · exact .inl (Nat.succ_pos i')

/-- A head that intersects no later binding moves the first overlap up by one position. -/
theorem IsFirstOverlap.cons {b : Binding} {bs : List Binding} {i j : Nat} (h : IsFirstOverlap bs i j)
    (hb : ∀ x ∈ bs, intersects b x = false) : IsFirstOverlap (b :: bs) (i + 1) (j + 1) := by
  refine ⟨Nat.succ_lt_succ h.lt, h.meets, fun i' j' x y hlt hx hy hxy => ?_⟩
  obtain ⟨j', rfl⟩ := Nat.exists_eq_succ_of_ne_zero (Nat.ne_zero_of_lt hlt)
  rcases i' with _ | i'
  · cases hx
    simp [hb y (List.mem_of_getElem? hy)] at hxy
  · have := h.first i' j' x y (Nat.lt_of_succ_lt_succ hlt) hx hy hxy
    omega

/-- The search for an overlap finds the first one. -/
theorem firstOverlap_eq_some {k : Nat} {bs : List Binding} {p : Nat × Nat} (h : firstOverlap k bs = some p) :
    ∃ i j, p = (k + i, k + j) ∧ IsFirstOverlap bs i j := by
  induction bs generalizing k with
  | nil => cases h
  | cons b bs ih =>
    cases hj : firstIntersecting b (k + 1) bs with
    | some j =>
      rw [firstOverlap, hj] at h
      cases h
      rw [firstIntersecting_eq_findIdx?] at hj
      obtain ⟨m, hm, rfl⟩ := Option.map_eq_some_iff.1 hj
      exact ⟨0, m + 1, by simp only [Prod.mk.injEq]; omega, isFirstOverlap_head hm⟩
    | none =>
      rw [firstOverlap, hj] at h
      obtain ⟨i, j, rfl, hfirst⟩ := ih h
      have hb := (firstIntersecting_eq_none_iff b (k + 1) bs).1 hj
      exact ⟨i + 1, j + 1, by simp only [Prod.mk.injEq]; omega, hfirst.cons hb⟩

/-! ## The checks and their causes -/

/-- The answer `o` of a check settles the cause with code `k`: an error it reports has that code and a cause that holds, and
without a report no cause with that code holds (R163). -/
structure Decides (c : Config) (k : Nat) (o : Option ConfigError) : Prop where
  sound : ∀ e, o = some e → errorCode e = k ∧ causeHolds c e
  complete : o = none → ∀ e, errorCode e = k → ¬ causeHolds c e

/-- A check of each binding by itself settles its cause. -/
theorem decides_firstFailing {c : Config} {k : Nat} {ok : Binding → Bool} {mk : Nat → ConfigError}
    (hcode : ∀ e, errorCode e = k ↔ ∃ i, e = mk i)
    (hcause : ∀ i, causeHolds c (mk i) ↔ ∃ b, c.bindings[i]? = some b ∧ ok b = false) :
    Decides c k ((firstFailing ok 0 c.bindings).map mk) where
  sound e he := by
    obtain ⟨i, hi, rfl⟩ := Option.map_eq_some_iff.1 he
    exact ⟨(hcode _).2 ⟨i, rfl⟩, (hcause i).2 (firstFailing_eq_some hi)⟩
  complete hnone e he hc := by
    obtain ⟨i, rfl⟩ := (hcode e).1 he
    obtain ⟨b, hb, hfail⟩ := (hcause i).1 hc
    have hok := (firstFailing_eq_none_iff ok 0 c.bindings).1 (Option.map_eq_none_iff.1 hnone) b (List.mem_of_getElem? hb)
    simp [hfail] at hok

/-- Two bindings in list order intersect exactly when `overlap` is a cause that holds. -/
theorem causeHolds_overlap_iff {c : Config} {i j : Nat} : causeHolds c (.overlap i j) ↔
    i < j ∧ ∃ x y, c.bindings[i]? = some x ∧ c.bindings[j]? = some y ∧ intersects x y = true := by
  simp only [causeHolds, intersects_iff]

theorem checkOverlap_decides (c : Config) : Decides c 1 (checkOverlap c) where
  sound e he := by
    obtain ⟨p, hp, rfl⟩ := Option.map_eq_some_iff.1 he
    obtain ⟨i, j, rfl, hfirst⟩ := firstOverlap_eq_some hp
    rw [Nat.zero_add, Nat.zero_add]
    exact ⟨rfl, causeHolds_overlap_iff.2 ⟨hfirst.lt, hfirst.meets⟩⟩
  complete hnone e he hc := by
    cases e with
    | overlap i j =>
      obtain ⟨hlt, x, y, hx, hy, hxy⟩ := causeHolds_overlap_iff.1 hc
      have hpair := (firstOverlap_eq_none_iff 0 c.bindings).1 (Option.map_eq_none_iff.1 hnone)
      obtain ⟨hi, rfl⟩ := List.getElem?_eq_some_iff.1 hx
      obtain ⟨hj, rfl⟩ := List.getElem?_eq_some_iff.1 hy
      simp [List.pairwise_iff_getElem.1 hpair i j hi hj hlt] at hxy
    | _ => simp [errorCode] at he

theorem checkPattern_decides (c : Config) : Decides c 2 (checkPattern c) :=
  decides_firstFailing (fun e => by cases e <;> simp [errorCode]) fun i => by
    simp only [causeHolds, Bool.eq_false_iff, ne_eq, patternInMask_iff]

theorem checkWidth_decides (c : Config) : Decides c 3 (checkWidth c) :=
  decides_firstFailing (fun e => by cases e <;> simp [errorCode]) fun i => by
    simp only [causeHolds, Bool.eq_false_iff, ne_eq, widthOk_iff, not_and_or, Nat.not_lt]

theorem checkFanout_decides (c : Config) : Decides c 4 (checkFanout c) :=
  decides_firstFailing (fun e => by cases e <;> simp [errorCode]) fun i => by
    simp only [causeHolds, Bool.eq_false_iff, ne_eq, fanoutOk_iff, Classical.not_imp]

theorem checkGroups_eq_ite (c : Config) : checkGroups c =
    if 2 ≤ (groupsFrom 0 c.bindings).length then some (.multipleGroups (groupsFrom 0 c.bindings)) else none := by
  rw [checkGroups]
  rcases groupsFrom 0 c.bindings with _ | ⟨i, _ | ⟨j, is⟩⟩ <;> simp

/-- The cause of code 5 holds of the list of the Group bindings, in any order, when there are two or more. -/
theorem causeHolds_multipleGroups_iff {c : Config} {is : List Nat} :
    causeHolds c (.multipleGroups is) ↔ 2 ≤ is.length ∧ is.Perm (groupsFrom 0 c.bindings) := by
  have hmem : ∀ i, i ∈ groupsFrom 0 c.bindings ↔ ∃ x, c.bindings[i]? = some x ∧ x.kind = .group := by
    simp [groupsFrom_eq_findIdxs, List.getElem?_eq_some_iff]
  have hnodup : (groupsFrom 0 c.bindings).Nodup := groupsFrom_eq_findIdxs 0 c.bindings ▸ List.nodup_findIdxs
  simp only [causeHolds, ← hmem]
  refine and_congr_right fun _ => ⟨fun ⟨hn, h⟩ => (List.perm_ext_iff_of_nodup hn hnodup).2 h, fun h => ?_⟩
  exact ⟨h.nodup_iff.2 hnodup, fun i => h.mem_iff⟩

theorem checkGroups_decides (c : Config) : Decides c 5 (checkGroups c) where
  sound e he := by
    obtain ⟨hlen, rfl⟩ : 2 ≤ (groupsFrom 0 c.bindings).length ∧ .multipleGroups (groupsFrom 0 c.bindings) = e := by
      simpa [checkGroups_eq_ite] using he
    exact ⟨rfl, causeHolds_multipleGroups_iff.2 ⟨hlen, .rfl⟩⟩
  complete hnone e he hc := by
    cases e with
    | multipleGroups is =>
      obtain ⟨hlen, hperm⟩ := causeHolds_multipleGroups_iff.1 hc
      simp [checkGroups_eq_ite, ← hperm.length_eq, hlen] at hnone
    | _ => simp [errorCode] at he

theorem checkDataWidth_decides (c : Config) : Decides c 6 (checkDataWidth c) where
  sound e he := by
    obtain ⟨hw, rfl⟩ : ¬ (1 ≤ c.dataW ∧ c.dataW ≤ 32) ∧ .dataWidth c.dataW = e := by
      simpa [checkDataWidth] using he
    exact ⟨rfl, rfl, by omega⟩
  complete hnone e he hc := by
    cases e with
    | dataWidth n =>
      obtain ⟨rfl, hw⟩ := hc
      have : 1 ≤ c.dataW ∧ c.dataW ≤ 32 := by simpa [checkDataWidth] using hnone
      omega
    | _ => simp [errorCode] at he

theorem regParamsOk_eq_false_iff (b : Binding) : regParamsOk b = false ↔
    b.kind = .register ∧ (b.regKind = none ∨ b.regKind ≠ some .ro ∧ b.regReset = none) := by
  rw [← Bool.not_eq_true, regParamsOk_iff]
  cases b.regKind <;> simp

theorem checkRegParams_decides (c : Config) : Decides c 7 (checkRegParams c) :=
  decides_firstFailing (fun e => by cases e <;> simp [errorCode]) fun i => by
    simp only [causeHolds, regParamsOk_eq_false_iff]

/-- The checks in the order of their codes (R163). -/
def checks (c : Config) : List (Option ConfigError) :=
  [checkOverlap c, checkPattern c, checkWidth c, checkFanout c, checkGroups c, checkDataWidth c, checkRegParams c]

theorem findSome?_id_cons {α : Type} (o : Option α) (os : List (Option α)) :
    (o :: os).findSome? id = (o <|> os.findSome? id) := by cases o <;> rfl

theorem configError_eq_findSome? (c : Config) : configError c = (checks c).findSome? id := by
  simp [configError, checks, findSome?_id_cons]

/-- The check at position `k` settles the cause with code `k + 1`. -/
theorem checks_decide {c : Config} : ∀ {k : Nat} {o : Option ConfigError}, (checks c)[k]? = some o → Decides c (k + 1) o
  | 0, _, rfl => checkOverlap_decides c
  | 1, _, rfl => checkPattern_decides c
  | 2, _, rfl => checkWidth_decides c
  | 3, _, rfl => checkFanout_decides c
  | 4, _, rfl => checkGroups_decides c
  | 5, _, rfl => checkDataWidth_decides c
  | 6, _, rfl => checkRegParams_decides c

/-- The error reported is that of the first check that fails. -/
theorem configError_eq_some {c : Config} {e : ConfigError} (h : configError c = some e) :
    ∃ m : Nat, (checks c)[m]? = some (some e) ∧ ∀ k < m, (checks c)[k]? = some none := by
  rw [configError_eq_findSome?, List.findSome?_eq_some_iff] at h
  obtain ⟨before, o, after, hsplit, rfl, hnone⟩ := h
  refine ⟨before.length, by simp [hsplit], fun k hk => ?_⟩
  rw [hsplit, List.getElem?_append_left hk, List.getElem?_eq_getElem hk]
  exact congrArg some (hnone _ (List.getElem_mem hk))

theorem errorCode_pos (e : ConfigError) : 0 < errorCode e := by cases e <;> simp [errorCode]

/-- No cause that holds has a smaller code than the error reported (R163, D41). -/
theorem errorCode_le_of_causeHolds {c : Config} {e e' : ConfigError} (h : configError c = some e) (h' : causeHolds c e') :
    errorCode e ≤ errorCode e' := by
  obtain ⟨m, hm, hbefore⟩ := configError_eq_some h
  obtain ⟨hcode, -⟩ := (checks_decide hm).sound e rfl
  by_contra hlt
  have hpos := errorCode_pos e'
  exact (checks_decide (hbefore (errorCode e' - 1) (by omega))).complete rfl e' (by omega) h'

/-- A reported overlap is the one the search finds (R163, D41). -/
theorem isFirstOverlap_of_configError {c : Config} {i j : Nat} (h : configError c = some (.overlap i j)) :
    IsFirstOverlap c.bindings i j := by
  obtain ⟨m, hm, -⟩ := configError_eq_some h
  obtain ⟨hcode, -⟩ := (checks_decide hm).sound _ rfl
  obtain rfl : m = 0 := Nat.succ_injective hcode.symm
  have hcheck : checkOverlap c = some (.overlap i j) := Option.some.inj hm
  obtain ⟨⟨i', j'⟩, hp, hij⟩ := Option.map_eq_some_iff.1 hcheck
  cases hij
  obtain ⟨i, j, hij, hfirst⟩ := firstOverlap_eq_some hp
  rw [Nat.zero_add, Nat.zero_add] at hij
  cases hij
  exact hfirst

/-! ## Runs of events by the two levels -/

/-- The two levels that decide which events are legal (R22, R23, R103). -/
abbrev levels (s : State) : Bool × Bool := (s.act, s.sckQ)

/-- What an event makes of the two levels (R93, R94, R95, R99). -/
def levelsAfter (l : Bool × Bool) : Ev → Bool × Bool
  | .csAssert   => (true, l.2)
  | .csDeassert => (false, l.2)
  | .sckRise _  => (l.1, true)
  | .sckFall    => (l.1, false)

/-- The levels after an event, where level signals can produce it (R103). -/
def levelStep (l : Bool × Bool) (ev : Ev) : Option (Bool × Bool) :=
  if levelsAfter l ev = l then none else some (levelsAfter l ev)

/-- Level signals can produce exactly the events that change a level (R103). -/
theorem legal_iff_levels_change (s : State) (ev : Ev) : legal s ev = true ↔ levelsAfter (levels s) ev ≠ levels s := by
  cases ev <;> simp [legal, levelsAfter]

theorem levels_of_applyEvent {ev : Ev} {s t : State} (h : applyEvent ev s = .next t) :
    levels t = levelsAfter (levels s) ev := by
  cases applyEvent_cases h <;> simp [levelsAfter, *]

/-- An event that the levels allow answers a next state with the levels it makes. -/
theorem exists_applyEvent_of_levelStep {ev : Ev} {s : State} {l : Bool × Bool} (h : levelStep (levels s) ev = some l) :
    ∃ t, applyEvent ev s = .next t ∧ levels t = l := by
  obtain ⟨hchange, hl⟩ := Option.ite_none_left_eq_some.1 h
  have ht := applyEvent_of_legal ((legal_iff_levels_change s ev).2 hchange)
  exact ⟨_, ht, (levels_of_applyEvent ht).trans (Option.some.inj hl)⟩

/-- A run of events that the levels allow completes. -/
theorem exists_runEvents_of_levels {evs : List Ev} {s : State} {l : Bool × Bool}
    (h : evs.foldlM levelStep (levels s) = some l) : ∃ t, runEvents evs s = .next t ∧ levels t = l := by
  induction evs generalizing s with
  | nil => exact ⟨s, rfl, by simpa using h⟩
  | cons ev evs ih =>
    obtain ⟨l', hev, hevs⟩ := Option.bind_eq_some_iff.1 h
    obtain ⟨u, hu, rfl⟩ := exists_applyEvent_of_levelStep hev
    obtain ⟨t, ht, hlt⟩ := ih hevs
    exact ⟨t, by rw [runEvents, hu]; exact ht, hlt⟩

theorem levels_clocks (act : Bool) (bits : List Bool) :
    (clocks bits).foldlM levelStep (act, false) = some (act, false) := by
  induction bits with
  | nil => rfl
  | cons b bs ih => simpa [clocks, levelStep, levelsAfter] using ih

/-- After the lead-in chip-select is asserted and the clock low, whatever the state (R93). -/
theorem levels_leadIn (s : State) : (leadIn s).foldlM levelStep (levels s) = some (true, false) := by
  have hassert : (if s.act then [] else [Ev.csAssert]).foldlM levelStep (s.act, s.sckQ) = some (true, s.sckQ) := by
    cases s.act <;> rfl
  have hlower : (if s.sckQ then [Ev.sckFall] else []).foldlM levelStep (true, s.sckQ) = some (true, false) := by
    cases s.sckQ <;> rfl
  have hidle (idle : Bool) :
      (if idle then [Ev.sckRise false, .sckFall] else []).foldlM levelStep (true, false) = some (true, false) := by
    cases idle <;> rfl
  simp only [leadIn, levels, List.foldlM_append, hassert, hlower, hidle, Option.bind_eq_bind, Option.bind_some]

theorem levels_leadOut (s : State) : (leadOut s).foldlM levelStep (true, false) = some (s.act, false) := by
  rw [leadOut]
  cases s.act <;> rfl

/-- Every burst completes from every state, with the clock low and the assertion level as it was. -/
theorem exists_runBurst (bits : List Bool) (s : State) :
    ∃ t, runBurst bits s = .next t ∧ levels t = (s.act, false) := by
  refine exists_runEvents_of_levels ?_
  simp only [burstEvents, List.foldlM_append, levels_leadIn, levels_clocks, levels_leadOut, Option.bind_eq_bind,
    Option.bind_some]

theorem runEvents_concat_next {evs : List Ev} {ev : Ev} {s t : State} (h : runEvents (evs ++ [ev]) s = .next t) :
    ∃ u, runEvents evs s = .next u ∧ applyEvent ev u = .next t := by
  rw [runEvents_append] at h
  split at h
  · refine ⟨_, ‹_›, ?_⟩
    rw [runEvents] at h
    split at h <;> simp_all
  · cases h
  · cases h

/-- A burst from an idle state ends in `CS_DEASSERT`, so in the frame reset (R87, R94). -/
theorem shiftInitial_of_runBurst {bits : List Bool} {s t : State} (hact : s.act = false) (h : runBurst bits s = .next t) :
    shiftInitial t := by
  have hout : leadOut s = [.csDeassert] := by simp [leadOut, hact]
  rw [runBurst, burstEvents, hout] at h
  obtain ⟨u, -, hu⟩ := runEvents_concat_next h
  exact shiftInitial_of_chipSelect hu (.inr rfl)

/-- A burst of any length runs the bits of some burst: its own, or those of the transaction it decodes to. -/
theorem exists_applyInput_burst_eq (bits : List Bool) (s : State) :
    ∃ sent, applyInput (.burst bits) s = runBurst sent s := by
  rw [applyInput]
  split
  · exact ⟨_, exec_eq_runBurst _ s⟩
  · exact ⟨bits, rfl⟩

/-- A sample answers a next state: at most one event is applied, and level signals can produce it (R106, R107). -/
theorem exists_onClockEdge (csPin sck sdi : Bool) (s : State) : ∃ t, onClockEdge csPin sck sdi s = .next t := by
  obtain ⟨hcs, hclock, hnone⟩ := samplesApplyOneEdge s csPin sck sdi _ rfl
  by_cases hact : (csPin == s.cfg.csActiveLevel) = s.act
  · by_cases hsck : sck = s.sckQ
    · exact ⟨s, hnone hact hsck⟩
    · have hl : legal s (if sck then .sckRise sdi else .sckFall) = true := by
        cases sck <;> simp_all [legal]
      exact ⟨_, (hclock hact hsck).trans (applyEvent_of_legal hl)⟩
  · obtain ⟨t, -, ht⟩ := hcs hact
    exact ⟨_, ht⟩

end Sys2Proof.Machine
end


section
/-! PROOFS. The statements of 60_exceptions.md settled. -/

namespace Sys2Proof.Machine

/-- Settles O4: each check settles the cause with its code, and the error reported comes from the first check that fails. -/
theorem reportedErrorHasTheSmallestCode : Obligations.ReportedErrorHasTheSmallestCode := by
  refine ⟨fun _ _ _ _ => ⟨rfl, rfl, rfl, rfl, rfl, rfl, rfl⟩, fun c e h => ?_⟩
  change (e ∈ (checks c).filterMap id ∧ ∀ e' ∈ (checks c).filterMap id, errorCode e ≤ errorCode e') ∧ _
  obtain ⟨m, hm, -⟩ := configError_eq_some h
  have hcause {e' : ConfigError} (he' : e' ∈ (checks c).filterMap id) : causeHolds c e' := by
    obtain ⟨_, hmem, rfl⟩ := List.mem_filterMap.1 he'
    obtain ⟨k, hk⟩ := List.mem_iff_getElem?.1 hmem
    exact ((checks_decide hk).sound e' rfl).2
  have he : e ∈ (checks c).filterMap id := List.mem_filterMap.2 ⟨some e, List.mem_of_getElem? hm, rfl⟩
  exact ⟨⟨he, fun e' he' => errorCode_le_of_causeHolds h (hcause he')⟩, hcause he,
    fun e' he' => errorCode_le_of_causeHolds h he'⟩

/-- Settles O5: the error with code 1 is what the search for an overlap finds, and the search goes through the pairs in the
order of D41. -/
theorem reportedOverlapIsTheFirstPair : Obligations.ReportedOverlapIsTheFirstPair := by
  intro c i j h
  have hfirst := isFirstOverlap_of_configError h
  exact ⟨⟨hfirst.lt, hfirst.meets⟩, hfirst.first⟩

/-- Settles O20: each kind of input but a single event, the only one that can be illegal. -/
theorem nothingStopsTheMachineAtRunTime : Obligations.NothingStopsTheMachineAtRunTime := by
  intro s x rest hadm hp hno
  rw [step_of_pending hadm hp]
  cases x with
  | burst bits =>
    obtain ⟨sent, hsent⟩ := exists_applyInput_burst_eq bits { s with pending := rest }
    obtain ⟨t, ht, -⟩ := exists_runBurst sent { s with pending := rest }
    exact ⟨t, hsent.trans ht⟩
  | event ev => exact absurd rfl (hno ev)
  | sample csPin sck sdi =>
    obtain ⟨t, ht⟩ := exists_onClockEdge csPin sck sdi { s with pending := rest }
    exact ⟨_, by rw [applyInput, ht]; rfl⟩
  | driveStatus e v => exact ⟨_, rfl⟩
  | driveExtSdo e b => exact ⟨_, rfl⟩

/-- Settles O44: a transaction is a burst of its bits, and a burst completes from every state. -/
theorem everyTransactionCompletes : Obligations.EveryTransactionCompletes := by
  intro i s
  rw [exec_eq_runBurst]
  obtain ⟨t, ht, hlevels⟩ := exists_runBurst (encode s.cfg i) s
  obtain ⟨hact, hsck⟩ := Prod.mk.inj hlevels
  exact ⟨t, ht, runEvents_cfg ht, hact, fun hidle => ⟨hsck, shiftInitial_of_runBurst hidle ht⟩⟩

end Sys2Proof.Machine
end

section
/-! PROOFS. Laws for the statements of 70_reset_and_hazards.md: a frame to a read/write register within an assertion, at the
assertion's start and after the idle clock of a back-to-back block. They ask for no more of the state than where its frame
stands. -/

namespace Sys2Proof.Machine

/-- Within an assertion a transaction is its lead-in and its clocks: it adds no chip-select event (R85, R87). -/
theorem exec_of_asserted {s : State} (i : Instr) (hact : s.act = true) :
    exec i s = runEvents (leadIn s ++ clocks (frameBits s.cfg.dataW i.addr i.we i.data)) s := by
  simp [exec_eq_xfer, xfer, runBurst, burstEvents, leadOut, hact]

/-- At the start of an assertion the first bit comes at once (R87). -/
theorem leadIn_of_shiftInitial {s : State} (hact : s.act = true) (hsck : s.sckQ = false) (hinit : shiftInitial s) :
    leadIn s = [] := by
  have hn : s.n ≠ 0 := Nat.ne_zero_of_lt (dataW_lt_of_shiftInitial hinit)
  simp [leadIn, hact, hsck, hn]

/-- After a complete frame of a back-to-back block the idle clock leads in the next, which finds its shift state initial
(R77, R98, D22). -/
theorem FrameDone.runEvents_leadIn {s : State} (h : FrameDone s) (hb : s.cfg.backToBack = true) (evs : List Ev) :
    runEvents (leadIn s ++ evs) s = runEvents evs (reopened s 1) := by
  obtain ⟨hact, hsck, hn, hq, hlcs⟩ := h
  have hlead : leadIn s = [.sckRise false, .sckFall] := by simp [leadIn, hact, hsck, hb, hn]
  rw [hlead]
  exact runEvents_idleClock false evs hact hsck hb hn hlcs hq

/-- The clocks of a frame to a read/write register (R96, R97): the master samples `ANY` on the eight header edges, then the
stored value, MSB first, and the terminal edge commits what `we` asks for. -/
theorem runEvents_frame_rw {s : State} {e : Nat} {a : Addr} (we : Bool) (d : Data) (hact : s.act = true)
    (hsck : s.sckQ = false) (hinit : shiftInitial s) (hN : 1 ≤ s.cfg.dataW ∧ s.cfg.dataW ≤ 32)
    (hroute : route s.cfg a = some e) (hk : kindOf s.cfg e = some .register) (hr : regKindOf s.cfg e = some .rw) :
    ∃ t, runEvents (clocks (frameBits s.cfg.dataW a we d)) s = .next t ∧ FrameDone t ∧ t.cfg = s.cfg ∧
      t.regs = endRegs s.cfg s.regs (some e) we (fitData s.cfg.dataW d) ∧
      t.sdoSeen = s.sdoSeen ++ List.replicate 8 none ++ (msbFirst s.cfg.dataW (regGet s.regs e)).map some := by
  have hlink : linkOf s.cfg (some e) = false := by simp [linkOf, not_hasLink_of_register hk]
  have hframe := runEvents_frame a we d [] hact hsck hinit hN hroute rfl
    (loadedSout_of_rw (s := { s with draws := s.draws + 7 }) hk hr)
  rw [List.append_nil, seenBits_chain _ _ _ hlink] at hframe
  obtain ⟨-, -, -, -, -, hq, hlcs⟩ := hinit
  exact ⟨_, hframe, ⟨hact, hsck, rfl, hq, hlcs⟩, rfl, rfl, rfl⟩

/-- A write to a read/write register at the start of an assertion leaves its frame complete and the `N` data bits stored
(R97, R128). -/
theorem exec_writes_rw_of_asserted {s : State} {i : Instr} {e : Nat} (hact : s.act = true) (hsck : s.sckQ = false)
    (hinit : shiftInitial s) (hN : 1 ≤ s.cfg.dataW ∧ s.cfg.dataW ≤ 32) (hwe : i.we = true)
    (hroute : route s.cfg i.addr = some e) (hk : kindOf s.cfg e = some .register) (hr : regKindOf s.cfg e = some .rw) :
    ∃ t, exec i s = .next t ∧ FrameDone t ∧ t.cfg = s.cfg ∧ regGet t.regs e = fitData s.cfg.dataW i.data := by
  obtain ⟨t, ht, hdone, hcfg, hregs, -⟩ := runEvents_frame_rw i.we i.data hact hsck hinit hN hroute hk hr
  refine ⟨t, ?_, hdone, hcfg, ?_⟩
  · rw [exec_of_asserted i hact, leadIn_of_shiftInitial hact hsck hinit, List.nil_append, ht]
  · rw [hregs, hwe, endRegs_of_write hk, regGet_committedRegs_same (.inl hr)]

/-- A read of a read/write register after a complete frame of a back-to-back block keeps the registers and returns the stored
value, after `ANY` on the idle clock and the eight header edges (R75, R98, D6, D22). -/
theorem FrameDone.exec_reads_rw {s : State} {j : Instr} {e : Nat} (h : FrameDone s) (hb : s.cfg.backToBack = true)
    (hN : 1 ≤ s.cfg.dataW ∧ s.cfg.dataW ≤ 32) (hwe : j.we = false) (hroute : route s.cfg j.addr = some e)
    (hk : kindOf s.cfg e = some .register) (hr : regKindOf s.cfg e = some .rw) :
    ∃ u, exec j s = .next u ∧ FrameDone u ∧ u.regs = s.regs ∧
      u.sdoSeen = s.sdoSeen ++ List.replicate 9 none ++ (msbFirst s.cfg.dataW (regGet s.regs e)).map some := by
  obtain ⟨u, hu, hdone, -, hregs, hseen⟩ := runEvents_frame_rw (s := reopened s 1) j.we j.data h.act h.sckQ
    ⟨rfl, rfl, rfl, rfl, rfl, rfl, rfl⟩ hN hroute hk hr
  refine ⟨u, ?_, hdone, ?_, ?_⟩
  · rw [exec_of_asserted j h.act, h.runEvents_leadIn hb]
    exact hu
  · rw [hregs, hwe, endRegs_of_read]
    rfl
  · simpa only [reopened, frameInit_cfg, frameInit_regs, List.append_assoc, List.replicate_append_replicate,
      Nat.reduceAdd] using hseen

end Sys2Proof.Machine
end

section
/-! PROOFS. The statement of 70_reset_and_hazards.md settled. -/

namespace Sys2Proof.Machine

/-- Settles O51: the first frame leaves the value stored and its frame complete, so the second opens with the idle clock, loads
the value into the chain and shifts it out. -/
theorem backToBackReadSeesTheWrite : Obligations.BackToBackReadSeesTheWrite := by
  rintro s i j v e hact hsck hinit hb hadm hwi hwj rfl hi hj hk hr
  have hN := admitted_width hadm
  obtain ⟨t, ht, htdone, htcfg, hstored⟩ := exec_writes_rw_of_asserted hact hsck hinit hN hwi hi hk hr
  obtain ⟨u, hu, hudone, huregs, huseen⟩ := htdone.exec_reads_rw (htcfg ▸ hb) (htcfg ▸ hN) hwj (htcfg ▸ hj) (htcfg ▸ hk)
    (htcfg ▸ hr)
  rw [hstored, htcfg] at huseen
  exact ⟨fitData_of_fits hN.2, t, u, ht, hu, htdone.act, htdone.n, hstored, hudone.act, hudone.n, huregs ▸ hstored, huseen⟩

end Sys2Proof.Machine
end

section
/-! PROOFS. The statement of 30_encoding.md about the step settled: the frame beside the burst that is no frame. -/

namespace Sys2Proof.Machine

/-- A burst that decodes is the transaction it decodes to (R85, R87). -/
theorem applyInput_burst_of_decode {s : State} {bits : List Bool} {i : Instr} (hdec : decode s.cfg bits = .ok i) :
    applyInput (.burst bits) s = exec i s := by
  rw [applyInput, hdec]

/-- Settles O18: the oldest input is taken, and a burst that decodes runs its transaction. -/
theorem stepRunsTheDecodedTransaction : Obligations.StepRunsTheDecodedTransaction := by
  intro s bits rest i hadm hp hdec
  calc step s = applyInput (.burst bits) { s with pending := rest } := step_of_pending hadm hp
    _ = exec i { s with pending := rest } := applyInput_burst_of_decode (s := { s with pending := rest }) hdec

end Sys2Proof.Machine
end
